-- ==== Sys2Proof/Word.lean ====
section
/-! DEFINITION. The words the block handles: bytes, 32-bit bus and command words, 256-bit operand words (R20, R50, R80),
operand indices (R82) and the four words of a point slot (R22). -/

namespace Sys2Proof

/-- One byte lane (R53). -/
abbrev Byte := BitVec 8

/-- One 32-bit bus word, and one 32-bit command word (R50, R80). -/
abbrev BusWord := BitVec 32

/-- One 256-bit operand word, an unsigned integer in [0, 2^256) (R20). -/
abbrev Word := BitVec 256

/-- An operand index, 0 to 31 (R82). -/
abbrev Idx := Fin 32

/-- The four words of a point slot, in their order W[i] = X, W[i+1] = Y, W[i+2] = Z, W[i+3] = T (R22). -/
structure PointWords where
  x : Word
  y : Word
  z : Word
  t : Word
deriving DecidableEq, Repr, Inhabited

end Sys2Proof
end

