-- ==== Sys2Proof/Config.lean ====
section
/-! DEFINITION. What an implementation fixes and the spec leaves OPEN (R5), as constants without a body: nothing can
prove a value of them. DEC_REJECT_SMALL_ORDER is the one OPEN parameter that software can see; it stands in State
(log 4). LAT(op) is not here: the model is untimed (log 6). -/

namespace Sys2Proof

/-- SMUL_INVALID (R5, R172): the `n`-th draw of "any four 256-bit words", for an invalid slot and a scalar word.
A FREE VALUE (log 3). -/
opaque Config.smulInvalid : Nat → PointWords → Word → PointWords

/-- Which 4 KiB page of the system address space the platform gives the window (R5, R50; log 5). -/
opaque Config.basePage : Nat

end Sys2Proof
end

