-- ==== Sys2Proof/Syntax.lean ====
section
/-! DEFINITION. The 17 commands, one constructor per row of spec/opcode_table.json (R85). A constructor's fields are the
operand fields the command uses, in the order RD, RA, RB, RC (R90); a field it does not use is no part of it (R87). -/

namespace Sys2Proof

inductive Instr where
  | nop
  | feAdd (rd ra rb : Idx)
  | feSub (rd ra rb : Idx)
  | feMul (rd ra rb : Idx)
  | feSqr (rd ra : Idx)
  | feInv (rd ra : Idx)
  | fePow (rd ra rb : Idx)
  | feCsel (rd ra rb rc : Idx)
  | scRed512 (rd ra : Idx)
  | scMuladd (rd ra rb rc : Idx)
  | scClamp (rd ra : Idx)
  | ptAdd (rd ra rb : Idx)
  | ptDbl (rd ra : Idx)
  | ptSmul (rd ra rb : Idx)
  | ptSmulb (rd ra : Idx)
  | ptEnc (rd ra : Idx)
  | ptDec (rd ra : Idx)
deriving DecidableEq, Repr

end Sys2Proof
end

