-- ==== Sys2Proof/WellFormed.lean ====
section
/-! DEFINITION. The alignment constraints of R88, as a check on the instruction. An ill-formed instruction is still an
instruction: it decodes, it encodes, and it completes with OPERAND_ALIGN (R90). -/

namespace Sys2Proof

/-- A point index is a multiple of 4 (R22, R82). -/
def Idx.namesPoint (i : Idx) : Bool := decide (i.val % 4 = 0)

/-- A pair index is even (R23, R82). -/
def Idx.namesPair (i : Idx) : Bool := decide (i.val % 2 = 0)

/-- R88's table, one line per command. -/
def Instr.wellFormed : Instr → Bool
  | .nop => true
  | .feAdd _ _ _ => true
  | .feSub _ _ _ => true
  | .feMul _ _ _ => true
  | .feSqr _ _ => true
  | .feInv _ _ => true
  | .fePow _ _ _ => true
  | .feCsel _ _ _ _ => true
  | .scRed512 _ ra => Idx.namesPair ra
  | .scMuladd _ _ _ _ => true
  | .scClamp _ _ => true
  | .ptAdd rd ra rb => Idx.namesPoint rd && Idx.namesPoint ra && Idx.namesPoint rb
  | .ptDbl rd ra => Idx.namesPoint rd && Idx.namesPoint ra
  | .ptSmul rd ra _ => Idx.namesPoint rd && Idx.namesPoint ra
  | .ptSmulb rd _ => Idx.namesPoint rd
  | .ptEnc _ ra => Idx.namesPoint ra
  | .ptDec rd _ => Idx.namesPoint rd

end Sys2Proof
end

