-- ==== Sys2Proof/Decode.lean ====
section
/-! DEFINITION. The command decoder, total on every 32-bit word (R86), and after it the encoder, from the same tables
(R80, R81, R85). -/

namespace Sys2Proof

/-- What a 32-bit word decodes to: a command, or one of the two rejections by name. -/
inductive Decoded where
  | instr (i : Instr)
  /-- Bits 31:28 are not 0 (R84). -/
  | reservedField
  /-- RSV = 0 and OP is no row of R85 (R86). -/
  | illegalOpcode
deriving DecidableEq, Repr

/-- The 5-bit operand field whose lowest bit is `lo` (R81, R82). -/
def operandField (c : BusWord) (lo : Nat) : Idx := ⟨c.toNat / 2 ^ lo % 32, Nat.mod_lt _ (by decide)⟩

def fieldRD (c : BusWord) : Idx := operandField c 8
def fieldRA (c : BusWord) : Idx := operandField c 13
def fieldRB (c : BusWord) : Idx := operandField c 18
def fieldRC (c : BusWord) : Idx := operandField c 23

/-- OP, bits 7:0 (R81). -/
def fieldOP (c : BusWord) : Nat := c.toNat % 256

/-- RSV, bits 31:28 (R81). -/
def fieldRSV (c : BusWord) : Nat := c.toNat / 2 ^ 28

/-- R85's opcode map: the command of an OP value and the four fields, or none for a reserved OP (R86). -/
def commandOf (op : Nat) (rd ra rb rc : Idx) : Option Instr :=
  match op with
  | 0x00 => some .nop
  | 0x10 => some (.feAdd rd ra rb)
  | 0x11 => some (.feSub rd ra rb)
  | 0x12 => some (.feMul rd ra rb)
  | 0x13 => some (.feSqr rd ra)
  | 0x14 => some (.feInv rd ra)
  | 0x15 => some (.fePow rd ra rb)
  | 0x16 => some (.feCsel rd ra rb rc)
  | 0x20 => some (.scRed512 rd ra)
  | 0x21 => some (.scMuladd rd ra rb rc)
  | 0x22 => some (.scClamp rd ra)
  | 0x30 => some (.ptAdd rd ra rb)
  | 0x31 => some (.ptDbl rd ra)
  | 0x32 => some (.ptSmul rd ra rb)
  | 0x33 => some (.ptSmulb rd ra)
  | 0x34 => some (.ptEnc rd ra)
  | 0x35 => some (.ptDec rd ra)
  | _ => none

/-- The decoder: RSV is checked before OP (R84, R103). -/
def decode (c : BusWord) : Decoded :=
  if fieldRSV c ≠ 0 then .reservedField
  else
    match commandOf (fieldOP c) (fieldRD c) (fieldRA c) (fieldRB c) (fieldRC c) with
    | some i => .instr i
    | none => .illegalOpcode

/-- `OP | RD<<8 | RA<<13 | RB<<18 | RC<<23` (R93), with RSV = 0. -/
def packCommand (op : Nat) (rd ra rb rc : Idx) : BusWord :=
  BitVec.ofNat 32 (op + rd.val * 2 ^ 8 + ra.val * 2 ^ 13 + rb.val * 2 ^ 18 + rc.val * 2 ^ 23)

/-- The OP value of a command (R85). -/
def Instr.opcode : Instr → Nat
  | .nop => 0x00
  | .feAdd _ _ _ => 0x10
  | .feSub _ _ _ => 0x11
  | .feMul _ _ _ => 0x12
  | .feSqr _ _ => 0x13
  | .feInv _ _ => 0x14
  | .fePow _ _ _ => 0x15
  | .feCsel _ _ _ _ => 0x16
  | .scRed512 _ _ => 0x20
  | .scMuladd _ _ _ _ => 0x21
  | .scClamp _ _ => 0x22
  | .ptAdd _ _ _ => 0x30
  | .ptDbl _ _ => 0x31
  | .ptSmul _ _ _ => 0x32
  | .ptSmulb _ _ => 0x33
  | .ptEnc _ _ => 0x34
  | .ptDec _ _ => 0x35

/-- The encoder; a field the command does not use assembles to 0 (R90). -/
def encode (i : Instr) : BusWord :=
  match i with
  | .nop => packCommand i.opcode 0 0 0 0
  | .feAdd rd ra rb => packCommand i.opcode rd ra rb 0
  | .feSub rd ra rb => packCommand i.opcode rd ra rb 0
  | .feMul rd ra rb => packCommand i.opcode rd ra rb 0
  | .feSqr rd ra => packCommand i.opcode rd ra 0 0
  | .feInv rd ra => packCommand i.opcode rd ra 0 0
  | .fePow rd ra rb => packCommand i.opcode rd ra rb 0
  | .feCsel rd ra rb rc => packCommand i.opcode rd ra rb rc
  | .scRed512 rd ra => packCommand i.opcode rd ra 0 0
  | .scMuladd rd ra rb rc => packCommand i.opcode rd ra rb rc
  | .scClamp rd ra => packCommand i.opcode rd ra 0 0
  | .ptAdd rd ra rb => packCommand i.opcode rd ra rb 0
  | .ptDbl rd ra => packCommand i.opcode rd ra 0 0
  | .ptSmul rd ra rb => packCommand i.opcode rd ra rb 0
  | .ptSmulb rd ra => packCommand i.opcode rd ra 0 0
  | .ptEnc rd ra => packCommand i.opcode rd ra 0 0
  | .ptDec rd ra => packCommand i.opcode rd ra 0 0

/-- The host's question: what the decoder reads from a table word of `nbits` bits, every bit above them 0. -/
def decodeTableWord (nbits w : Nat) : Option Instr :=
  match decode (BitVec.ofNat 32 (w % 2 ^ nbits)) with
  | .instr i => some i
  | .reservedField => none
  | .illegalOpcode => none

end Sys2Proof
end

