-- ==== Sys2Proof/Machine/State.lean ====
section
/-! DEFINITION. The block's state as plain data: R38's record, the parameter and the reset pin, and the model's own
fields for the outside world. Also what a bus transfer is (R243) and the state after reset (R37). -/

namespace Sys2Proof.Machine

/-- One bus transfer as the port shows it (R243). `burst` marks a transfer that is part of a burst (R56; log 9). -/
structure Transfer where
  we : Bool
  addr : BitVec 12
  size : BitVec 2
  wstrb : BitVec 4
  wdata : BusWord
  burst : Bool
deriving DecidableEq, Repr

/-- What the outside world does, or whose turn it is, in the one total order of R61 (log 1). -/
inductive Event where
  /-- A bus transfer arrives at the port (R50). -/
  | access (t : Transfer)
  /-- The Engine's turn: the completion of R102, if BUSY = 1. -/
  | engine
  /-- The level of `rst_n` changes or is driven again; `false` is low, the reset asserted (R230). -/
  | rstPin (level : Bool)
deriving DecidableEq, Repr

/-- How a bus transfer ends: `bus_ready` with data, without data, or with `bus_err` (R50, R243). -/
inductive Response where
  | data (v : BusWord)
  | okWrite
  /-- R56: no data, no change of state. -/
  | busError
deriving DecidableEq, Repr

/-- The completion codes that are not 0 (R200). -/
inductive ErrCode where
  | illegalOpcode
  | operandAlign
  | invalidEncoding
  | reservedField
deriving DecidableEq, Repr

/-- The state. The first eight fields are R38's record. -/
structure State where
  /-- W[0] .. W[31] (R20). -/
  w : Vector Word 32
  /-- STATUS.BUSY, an exact view of the engine (R26, R35). -/
  busy : Bool
  /-- STATUS.DONE (R27). -/
  done : Bool
  /-- STATUS.CMDOVR (R28). -/
  cmdovr : Bool
  /-- STATUS.ACCERR (R28). -/
  accerr : Bool
  /-- CTRL.IE (R31). -/
  ie : Bool
  /-- STATUS.ERR (R29). -/
  err : BitVec 4
  /-- LASTCMD (R32). -/
  lastcmd : BusWord
  /-- DEC_REJECT_SMALL_ORDER (R5), a parameter: no step changes it (log 4). -/
  drso : Bool
  /-- The level of `rst_n` (R230). -/
  rstN : Bool
  /-- What happens next, in the order of R61; empty: nothing more from outside (log 1). -/
  agenda : List Event
  /-- The answer to the last completed bus transfer (log 10). -/
  resp : Option Response
  /-- How many SMUL_INVALID draws were taken (log 3). -/
  draws : Nat
deriving DecidableEq, Repr

/-- The reasons the machine stops with a fault: there are none. The block has no trap, and every event has a next
state (R207, R102). -/
inductive Fault where
deriving DecidableEq, Repr

/-- The reasons a step has no meaning. -/
inductive Refusal where
  /-- Raised by an arm of `exec` whose instruction has no meaning yet; safe. No arm of this model raises it. -/
  | notModelled (mnemonic : String)
deriving DecidableEq, Repr

/-- The state right after reset (R37, R233), with the parameter at its default (R5) and nothing on the agenda. -/
def State.reset : State where
  w := Vector.replicate 32 0#256
  busy := false
  done := false
  cmdovr := false
  accerr := false
  ie := false
  err := 0#4
  lastcmd := 0x00000000#32
  drso := false
  rstN := true
  agenda := []
  resp := none
  draws := 0

end Sys2Proof.Machine
end

