-- ==== Sys2Proof/Machine/Ops.lean ====
section
/-! DEFINITION. The shared operations: the operand file, the completion step of R102 with its error form (the block's
only "exception", R207), acceptance (R100, R101), and reset (R230, R231). -/

namespace Sys2Proof.Machine

/-- W[i] (R7, R20). -/
def State.word (s : State) (i : Idx) : Word := s.w[i.val]

/-- W[i] <- v (R7). -/
def setWord (w : Vector Word 32) (i : Idx) (v : Word) : Vector Word 32 := w.set i.val v

/-- A command's `writes`, in order (R102). -/
def applyWrites : Vector Word 32 → List (Idx × Word) → Vector Word 32
  | w, [] => w
  | w, (i, v) :: rest => applyWrites (setWord w i v) rest

/-- The STATUS.ERR code of an error (R200). -/
def ErrCode.code : ErrCode → BitVec 4
  | .illegalOpcode => 1#4
  | .operandAlign => 2#4
  | .invalidEncoding => 3#4
  | .reservedField => 4#4

/-- The record every completion leaves: ERR, BUSY = 0, DONE = 1 (R102). -/
def finish (s : State) (code : BitVec 4) : State := { s with err := code, busy := false, done := true }

/-- Completion without error: the writes land, ERR = 0 (R102, R105). -/
def complete (s : State) (writes : List (Idx × Word)) : Host.Outcome State Fault Refusal :=
  .next (finish { s with w := applyWrites s.w writes } 0#4)

/-- Completion with an error: no operand word is written (R7 `raise`, R105, R207). -/
def raise (s : State) (e : ErrCode) : Host.Outcome State Fault Refusal := .next (finish s e.code)

/-- Acceptance of the command `c` (R100): no decoding, no error. -/
def accept (s : State) (c : BusWord) : State :=
  { s with lastcmd := c, busy := true, done := false, err := 0#4 }

/-- A CMD write while BUSY = 1 is dropped and shown by CMDOVR (R101). -/
def dropCommand (s : State) : State := { s with cmdovr := true }

/-- A write of CMD (R32, R100, R101). -/
def writeCommand (s : State) (c : BusWord) : State := if s.busy then dropCommand s else accept s c

/-- R37's reset values in every piece of the block's state. The parameter, the pin, the outside world's agenda and the
model's draw counter are no state of the block and stay (log 14). -/
def applyReset (s : State) : State :=
  { State.reset with drso := s.drso, rstN := s.rstN, agenda := s.agenda, draws := s.draws }

/-- `rst_n` goes low (R230): the reset values, and the block is held there. -/
def hardReset (s : State) : State := { applyReset s with rstN := false }

/-- `rst_n` goes high (R230): the block is idle and ready. -/
def releaseReset (s : State) : State := { applyReset s with rstN := true }

end Sys2Proof.Machine
end

