-- ==== Sys2Proof/Machine/Flags.lean ====
section
/-! DEFINITION. The control and status registers as words (R25, R30, R31, R33), the W1C rule of a STATUS write, and the
interrupt output (R36, R205). The block has no condition codes (R39). -/

namespace Sys2Proof.Machine

/-- A flag as bit `k` of a register word. -/
def flagBit (b : Bool) (k : Nat) : BusWord := if b then BitVec.ofNat 32 (2 ^ k) else 0#32

/-- ID (R30). -/
def idWord : BusWord := 0xED250100#32

/-- STATUS as it reads (R25). -/
def State.statusWord (s : State) : BusWord :=
  flagBit s.busy 0 ||| flagBit s.done 1 ||| flagBit s.cmdovr 2 ||| flagBit s.accerr 3 |||
    BitVec.ofNat 32 (s.err.toNat * 2 ^ 4)

/-- CTRL as it reads: IE in bit 0, SRST reads 0 (R31). -/
def State.ctrlWord (s : State) : BusWord := flagBit s.ie 0

/-- PARAM: NW = 32 in bits 7:0, DRSO in bit 8 (R33). -/
def State.paramWord (s : State) : BusWord := 32#32 ||| flagBit s.drso 8

/-- A write of STATUS clears the W1C bits written as 1 and nothing else (R25, R27, R28). -/
def writeStatus (s : State) (v : BusWord) : State :=
  { s with
    done := s.done && !v.getLsbD 1
    cmdovr := s.cmdovr && !v.getLsbD 2
    accerr := s.accerr && !v.getLsbD 3 }

/-- A write of CTRL: bit 1 performs the soft reset, whatever the other bits; else IE is bit 0 (R31, R231). -/
def writeCtrl (s : State) (v : BusWord) : State :=
  if v.getLsbD 1 then applyReset s else { s with ie := v.getLsbD 0 }

/-- The output `irq` = STATUS.DONE AND CTRL.IE (R36, R205). -/
def State.irq (s : State) : Bool := s.done && s.ie

end Sys2Proof.Machine
end

