-- ==== Sys2Proof/Machine/Bus.lean ====
section
/-! DEFINITION. The bus slave: the address map (R51), MemRead and MemWrite (R50) on every register and on the operand
window (R52, R58), and the one accepted access form (R56). -/

namespace Sys2Proof.Machine

/-- What stands at an offset of the window (R51). -/
inductive Region where
  | id
  | ctrl
  | status
  | cmd
  | param
  /-- Lane `j` of operand word `n` (R52). -/
  | operand (n : Idx) (j : Fin 8)
  /-- RAZ/WI (R34). -/
  | reserved
deriving DecidableEq, Repr

/-- The offset of lane `j` of W[n] (R52). -/
def laneOffset (n : Idx) (j : Fin 8) : BitVec 12 := BitVec.ofNat 12 (0x100 + 32 * n.val + 4 * j.val)

/-- The address map (R51), for an offset that is a multiple of 4. -/
def regionOf (off : BitVec 12) : Region :=
  if off = 0x000#12 then .id
  else if off = 0x004#12 then .ctrl
  else if off = 0x008#12 then .status
  else if off = 0x00C#12 then .cmd
  else if off = 0x010#12 then .param
  else if h : 0x100 ≤ off.toNat ∧ off.toNat < 0x500 then
    .operand ⟨(off.toNat - 0x100) / 32, by omega⟩ ⟨(off.toNat - 0x100) % 32 / 4, by omega⟩
  else .reserved

/-- W[n][32j+31 : 32j] (R52). -/
def getLane (v : Word) (j : Fin 8) : BusWord := v.extractLsb' (32 * j.val) 32

/-- W[n][32j+31 : 32j] <- x, the other bits unchanged (R52). -/
def setLane (v : Word) (j : Fin 8) (x : BusWord) : Word :=
  (v &&& ~~~(0xFFFFFFFF#256 <<< (32 * j.val))) ||| (x.setWidth 256 <<< (32 * j.val))

/-- An operand-window access while BUSY = 1 (R58). -/
def refuseOperandAccess (s : State) : State := { s with accerr := true }

/-- MemRead(off, 4) (R50, R51): the value, and the state after it (R59). -/
def memRead (s : State) (off : BitVec 12) : BusWord × State :=
  match regionOf off with
  | .id => (idWord, s)
  | .ctrl => (s.ctrlWord, s)
  | .status => (s.statusWord, s)
  | .cmd => (s.lastcmd, s)
  | .param => (s.paramWord, s)
  | .operand n j => if s.busy then (0#32, refuseOperandAccess s) else (getLane (s.word n) j, s)
  | .reserved => (0#32, s)

/-- MemWrite(off, 4, v) (R50, R51): the state after it (R59). -/
def memWrite (s : State) (off : BitVec 12) (v : BusWord) : State :=
  match regionOf off with
  | .id => s
  | .ctrl => writeCtrl s v
  | .status => writeStatus s v
  | .cmd => writeCommand s v
  | .param => s
  | .operand n j =>
    if s.busy then refuseOperandAccess s
    else { s with w := setWord s.w n (setLane (s.word n) j v) }
  | .reserved => s

/-- The one access form (R56, R243): 32 bits, at a multiple of 4, no burst, and for a write all four strobes (log 9). -/
def Transfer.accepted (t : Transfer) : Bool :=
  t.size == 2#2 && t.addr.toNat % 4 == 0 && !t.burst && (!t.we || t.wstrb == 0xF#4)

/-- A bus transfer, and the answer it leaves (R50). Any other form ends with BusError and changes nothing (R56). -/
def busAccess (s : State) (t : Transfer) : State :=
  if t.accepted then
    if t.we then { memWrite s t.addr t.wdata with resp := some .okWrite }
    else
      let (v, s') := memRead s t.addr
      { s' with resp := some (.data v) }
  else { s with resp := some .busError }

/-- MemRead(off, 4) as a transfer (R50). -/
def readTransfer (off : BitVec 12) : Transfer := ⟨false, off, 2#2, 0xF#4, 0#32, false⟩

/-- MemWrite(off, 4, v) as a transfer (R50). -/
def writeTransfer (off : BitVec 12) (v : BusWord) : Transfer := ⟨true, off, 2#2, 0xF#4, v, false⟩

/-- BASE, the system address of offset 0: 4 KiB aligned (R5, R50; log 5). -/
def base : Nat := 4096 * Config.basePage

/-- The window's offset of a system address, if the window holds it (R50). -/
def windowOffset (a : Nat) : Option (BitVec 12) :=
  if base ≤ a ∧ a < base + 4096 then some (BitVec.ofNat 12 (a - base)) else none

end Sys2Proof.Machine
end

