-- ==== Sys2Proof/Machine/Constants.lean ====
section
/-! DEFINITION. The block's built-in constants (R9 to R13, R83), as the spec writes them out. -/

namespace Sys2Proof.Machine

/-- The field prime 2^255 - 19 (R9). -/
def p : Nat := 57896044618658097711785492504343953926634992332820282019728792003956564819949

/-- The group order 2^252 + 27742317777372353535851937790883648493 (R10). -/
def L : Nat := 0x1000000000000000000000000000000014DEF9DEA2F79CD65812631A5CF5D3ED

/-- The curve constant -121665/121666 mod p (R11). -/
def curveD : Nat := 37095705934669439343138083508754565189542113879843219016388785533085940283555

/-- 2d mod p (R11). -/
def curve2D : Nat := 16295367250680780974490674513165176452449235426866156013048779062215315747161

/-- 2^((p-1)/4) mod p, a square root of -1 (R12). -/
def sqrtM1 : Nat := 19681161376707505956807079304988542015446066515923890162744021073123829784752

/-- The x coordinate of the base point (R13). -/
def baseX : Nat := 15112221349535400772501151409588531511454012693041857206046113283949847762202

/-- The y coordinate of the base point (R13). -/
def baseY : Nat := 46316835694926478169428394003475163141307993866256225615783033603165251855960

end Sys2Proof.Machine
end

