-- ==== Sys2Proof/Machine/FieldArith.lean ====
section
/-! DEFINITION. Arithmetic in GF(p) on natural numbers: each operation is exact over the integers and reduced once
(R8, R120, R128). Every result is canonical, in [0, p). -/

namespace Sys2Proof.Machine

/-- (a + b) mod p. -/
def fadd (a b : Nat) : Nat := (a + b) % p

/-- (a - b) mod p; R128: the sum of a and p - (b mod p). -/
def fsub (a b : Nat) : Nat := (a + (p - b % p)) % p

/-- (a * b) mod p. -/
def fmul (a b : Nat) : Nat := a * b % p

/-- x^e mod p over the lowest `n` bits of `e`, by squaring: x^0 = 1 for every x (R126). -/
def fpowBits : Nat → Nat → Nat → Nat
  | 0, _, _ => 1
  | n + 1, x, e =>
    let h := fpowBits n x (e / 2)
    if e % 2 = 1 then fmul (fmul h h) x else fmul h h

/-- (a mod p)^e mod p, for an exponent of up to 256 bits (R126). -/
def fpow (a e : Nat) : Nat := fpowBits 256 (a % p) e

/-- inv_p(a) = a^(p-2) mod p, so inv_p(0) = 0 (R8, R125). -/
def finv (a : Nat) : Nat := fpow a (p - 2)

/-- a/b = a * inv_p(b) mod p (R8). -/
def fdiv (a b : Nat) : Nat := fmul a (finv b)

/-- A square root of `a` mod p, or none. As p = 5 mod 8, a root, if there is one, is a^((p+3)/8) or that times
SQRTM1 (R165 fixes only whether there is a root and which one is taken; log 13). -/
def fsqrt (a : Nat) : Option Nat :=
  let r := fpow a ((p + 3) / 8)
  if fmul r r = a % p then some r
  else
    let r' := fmul r sqrtM1
    if fmul r' r' = a % p then some r' else none

end Sys2Proof.Machine
end

