-- ==== Sys2Proof/Machine/Curve.lean ====
section
/-! DEFINITION. The twisted Edwards curve (R160 to R166, R170, R171): affine points and extended coordinates on natural
numbers, the group law, multiples, encoding and decoding. -/

namespace Sys2Proof.Machine

/-- An affine point (x, y) (R161). -/
structure Affine where
  x : Nat
  y : Nat
deriving DecidableEq, Repr

/-- Extended coordinates (X, Y, Z, T) of a point, each mod p (R14, R160). -/
structure Ext where
  x : Nat
  y : Nat
  z : Nat
  t : Nat
deriving DecidableEq, Repr

/-- The identity, (0, 1) (R161). -/
def identity : Affine := ⟨0, 1⟩

/-- The base point B (R13). -/
def basePoint : Affine := ⟨baseX, baseY⟩

/-- Point commands read each coordinate as uint(W[·]) mod p (R160). -/
def extOf (pw : PointWords) : Ext := ⟨pw.x.toNat % p, pw.y.toNat % p, pw.z.toNat % p, pw.t.toNat % p⟩

/-- Four canonical coordinates as the words of a slot (R82). -/
def wordsOf (e : Ext) : PointWords :=
  ⟨BitVec.ofNat 256 e.x, BitVec.ofNat 256 e.y, BitVec.ofNat 256 e.z, BitVec.ofNat 256 e.t⟩

/-- aff(X, Y, Z, T) = (X/Z, Y/Z) (R161). -/
def aff (e : Ext) : Affine :=
  let zi := finv e.z
  ⟨fmul e.x zi, fmul e.y zi⟩

/-- -x^2 + y^2 = 1 + d*x^2*y^2 mod p (R160). -/
def onCurve (q : Affine) : Bool :=
  let xx := fmul q.x q.x
  let yy := fmul q.y q.y
  decide (fsub yy xx = fadd 1 (fmul (fmul curveD xx) yy))

/-- The three conditions of a valid point (R160). -/
def validPoint (e : Ext) : Bool :=
  decide (e.z % p ≠ 0) && decide (fmul e.x e.y = fmul e.z e.t) && onCurve (aff e)

/-- The group law of affine curve points (R162). -/
def affAdd (a b : Affine) : Affine :=
  let m := fmul (fmul curveD (fmul a.x b.x)) (fmul a.y b.y)
  ⟨fdiv (fadd (fmul a.x b.y) (fmul a.y b.x)) (fadd 1 m),
   fdiv (fadd (fmul a.y b.y) (fmul a.x b.x)) (fsub 1 m)⟩

/-- k·Q as R163 defines it: 0·Q = (0, 1) and (k+1)·Q = k·Q + Q. `smul` below computes it. -/
def nsmul : Nat → Affine → Affine
  | 0, _ => identity
  | k + 1, q => affAdd (nsmul k q) q

/-- norm(x, y) = (x, y, 1, x*y mod p) (R166). -/
def normPoint (q : Affine) : Ext := ⟨q.x, q.y, 1, fmul q.x q.y⟩

/-- PT_ADD's formulas, RFC 8032 §5.1.4 (R170). -/
def extAdd (a b : Ext) : Ext :=
  let A := fmul (fsub a.y a.x) (fsub b.y b.x)
  let B := fmul (fadd a.y a.x) (fadd b.y b.x)
  let C := fmul (fmul a.t curve2D) b.t
  let D := fmul (fmul a.z 2) b.z
  let E := fsub B A
  let F := fsub D C
  let G := fadd D C
  let H := fadd B A
  ⟨fmul E F, fmul G H, fmul F G, fmul E H⟩

/-- PT_DBL's formulas, RFC 8032 §5.1.4; T is not read (R171). -/
def extDbl (a : Ext) : Ext :=
  let A := fmul a.x a.x
  let B := fmul a.y a.y
  let C := fmul (fmul 2 a.z) a.z
  let H := fadd A B
  let xy := fadd a.x a.y
  let E := fsub H (fmul xy xy)
  let G := fsub A B
  let F := fadd C G
  ⟨fmul E F, fmul G H, fmul F G, fmul E H⟩

/-- k·Q in extended coordinates over the lowest `n` bits of `k`, by doubling and adding, most significant bit first. -/
def extSmul : Nat → Nat → Ext → Ext
  | 0, _, _ => normPoint identity
  | n + 1, k, q =>
    let h := extDbl (extSmul n (k / 2) q)
    if k % 2 = 1 then extAdd h q else h

/-- k·Q for a curve point Q and a scalar of up to 256 bits: R163's multiple, computed by doubling and adding
(Sys2Proof.Laws.smul_eq_nsmul; log 12). -/
def smul (k : Nat) (q : Affine) : Affine := aff (extSmul 256 k (normPoint q))

/-- encode(x, y) = y + 2^255 * (x mod 2) (R164). -/
def encodePoint (q : Affine) : Word := BitVec.ofNat 256 (q.y + 2 ^ 255 * (q.x % 2))

/-- 8·(x, y) = (0, 1) (R165). -/
def smallOrder (q : Affine) : Bool := decide (smul 8 q = identity)

/-- decode(w), with the small-order policy as an argument (R165). -/
def decodePoint (rejectSmallOrder : Bool) (w : Word) : Option Affine :=
  let y := (w.extractLsb' 0 255).toNat
  let s := (w.extractLsb' 255 1).toNat
  if p ≤ y then none
  else
    let yy := fmul y y
    let u := fsub yy 1
    let v := fadd (fmul curveD yy) 1
    let x2 := fmul u (finv v)
    match fsqrt x2 with
    | none => none
    | some r =>
      if x2 = 0 ∧ s = 1 then none
      else
        let q : Affine := ⟨if r % 2 = s then r else p - r, y⟩
        if rejectSmallOrder && smallOrder q then none else some q

end Sys2Proof.Machine
end

