-- ==== Sys2Proof/Machine/Operands.lean ====
section
/-! DEFINITION. The operand forms of R82: word, point slot and pair slot, what each reads and what a destination of each
kind writes, and the alignment checks the commands make (R88). -/

namespace Sys2Proof.Machine

/-- uint(W[i]), all 256 bits (R7, R120, R140). -/
def State.uint (s : State) (i : Idx) : Nat := (s.word i).toNat

/-- The four words of the slot whose first word is W[i] (R22, R82). -/
def State.slot (s : State) (i : Idx) : PointWords := ⟨s.word i, s.word (i + 1), s.word (i + 2), s.word (i + 3)⟩

/-- The 512-bit value of the pair whose low word is W[i] (R23, R82). -/
def State.pair (s : State) (i : Idx) : Nat := s.uint i + 2 ^ 256 * s.uint (i + 1)

/-- The write of one word (R82). -/
def wordWrite (i : Idx) (v : Word) : List (Idx × Word) := [(i, v)]

/-- The write of a point slot: X, Y, Z, T into W[i] .. W[i+3] (R82). -/
def slotWrites (i : Idx) (pw : PointWords) : List (Idx × Word) :=
  [(i, pw.x), (i + 1, pw.y), (i + 2, pw.z), (i + 3, pw.t)]

/-- The index is a multiple of 4 (R88). -/
def pointAligned (i : Idx) : Bool := i.val % 4 == 0

/-- The index is even (R88). -/
def pairAligned (i : Idx) : Bool := i.val % 2 == 0

/-- A result of the arithmetic, which is below 2^256, as the word written (R120, R140). -/
def toWord (n : Nat) : Word := BitVec.ofNat 256 n

end Sys2Proof.Machine
end

