-- ==== Sys2Proof/Machine/Control.lean ====
section
/-! DEFINITION. The control family: NOP (R107). -/

namespace Sys2Proof.Machine

/-- NOP (R107): completes and writes no operand. -/
def execNop (s : State) : Host.Outcome State Fault Refusal := complete s []

end Sys2Proof.Machine
end

