-- ==== Sys2Proof/Machine/Field.lean ====
section
/-! DEFINITION. The field family (R120 to R127). -/

namespace Sys2Proof.Machine

/-- FE_ADD (R121). -/
def execFeAdd (rd ra rb : Idx) (s : State) : Host.Outcome State Fault Refusal :=
  complete s (wordWrite rd (toWord (fadd (s.uint ra) (s.uint rb))))

/-- FE_SUB: RA minus RB (R122). -/
def execFeSub (rd ra rb : Idx) (s : State) : Host.Outcome State Fault Refusal :=
  complete s (wordWrite rd (toWord (fsub (s.uint ra) (s.uint rb))))

/-- FE_MUL (R123). -/
def execFeMul (rd ra rb : Idx) (s : State) : Host.Outcome State Fault Refusal :=
  complete s (wordWrite rd (toWord (fmul (s.uint ra) (s.uint rb))))

/-- FE_SQR (R124). -/
def execFeSqr (rd ra : Idx) (s : State) : Host.Outcome State Fault Refusal :=
  complete s (wordWrite rd (toWord (fmul (s.uint ra) (s.uint ra))))

/-- FE_INV: 0 for a = 0 mod p, without an error (R125). -/
def execFeInv (rd ra : Idx) (s : State) : Host.Outcome State Fault Refusal :=
  complete s (wordWrite rd (toWord (finv (s.uint ra))))

/-- FE_POW: base RA, exponent RB, all 256 bits of it (R126). -/
def execFePow (rd ra rb : Idx) (s : State) : Host.Outcome State Fault Refusal :=
  complete s (wordWrite rd (toWord (fpow (s.uint ra) (s.uint rb))))

/-- FE_CSEL: bit 0 of W[RC] selects W[RB], else W[RA], copied bit for bit (R127). -/
def execFeCsel (rd ra rb rc : Idx) (s : State) : Host.Outcome State Fault Refusal :=
  complete s (wordWrite rd (if (s.word rc).getLsbD 0 then s.word rb else s.word ra))

end Sys2Proof.Machine
end

