-- ==== Sys2Proof/Machine/Point.lean ====
section
/-! DEFINITION. The point family (R160 to R175). -/

namespace Sys2Proof.Machine

/-- PT_ADD: the formulas of R170 on any two slots, valid or not. -/
def execPtAdd (rd ra rb : Idx) (s : State) : Host.Outcome State Fault Refusal :=
  if pointAligned rd && pointAligned ra && pointAligned rb then
    complete s (slotWrites rd (wordsOf (extAdd (extOf (s.slot ra)) (extOf (s.slot rb)))))
  else raise s .operandAlign

/-- PT_DBL: the formulas of R171 on any slot, valid or not. -/
def execPtDbl (rd ra : Idx) (s : State) : Host.Outcome State Fault Refusal :=
  if pointAligned rd && pointAligned ra then
    complete s (slotWrites rd (wordsOf (extDbl (extOf (s.slot ra)))))
  else raise s .operandAlign

/-- PT_SMUL (R172): norm(k·aff) for a valid slot; for an invalid one the next draw of SMUL_INVALID, a FREE VALUE
(log 3), with ERR = 0. -/
def execPtSmul (rd ra rb : Idx) (s : State) : Host.Outcome State Fault Refusal :=
  if pointAligned rd && pointAligned ra then
    if validPoint (extOf (s.slot ra)) then
      complete s (slotWrites rd (wordsOf (normPoint (smul (s.uint rb) (aff (extOf (s.slot ra)))))))
    else
      complete { s with draws := s.draws + 1 }
        (slotWrites rd (Config.smulInvalid s.draws (s.slot ra) (s.word rb)))
  else raise s .operandAlign

/-- PT_SMULB: norm(k·B) (R173). -/
def execPtSmulb (rd ra : Idx) (s : State) : Host.Outcome State Fault Refusal :=
  if pointAligned rd then complete s (slotWrites rd (wordsOf (normPoint (smul (s.uint ra) basePoint))))
  else raise s .operandAlign

/-- PT_ENC: encode(aff); T is not read, and Z = 0 gives the word 0 without an error (R174). -/
def execPtEnc (rd ra : Idx) (s : State) : Host.Outcome State Fault Refusal :=
  if pointAligned ra then complete s (wordWrite rd (encodePoint (aff (extOf (s.slot ra)))))
  else raise s .operandAlign

/-- PT_DEC: norm(decode(w)), or INVALID_ENCODING with the slot unchanged (R175). -/
def execPtDec (rd ra : Idx) (s : State) : Host.Outcome State Fault Refusal :=
  if pointAligned rd then
    match decodePoint s.drso (s.word ra) with
    | some q => complete s (slotWrites rd (wordsOf (normPoint q)))
    | none => raise s .invalidEncoding
  else raise s .operandAlign

end Sys2Proof.Machine
end

