-- ==== Sys2Proof/Machine/Scalar.lean ====
section
/-! DEFINITION. The scalar family, modulo the group order L (R140 to R143). -/

namespace Sys2Proof.Machine

/-- SC_RED512: the 512-bit pair modulo L; RA must be even (R141). -/
def execScRed512 (rd ra : Idx) (s : State) : Host.Outcome State Fault Refusal :=
  if pairAligned ra then complete s (wordWrite rd (toWord (s.pair ra % L)))
  else raise s .operandAlign

/-- SC_MULADD (R142). -/
def execScMuladd (rd ra rb rc : Idx) (s : State) : Host.Outcome State Fault Refusal :=
  complete s (wordWrite rd (toWord ((s.uint ra * s.uint rb + s.uint rc) % L)))

/-- The clamping of R143: bits 2:0 and 255 cleared, bit 254 set, bits 253:3 kept. -/
def clamp (a : Word) : Word := (a &&& ~~~(7#256 ||| 1#256 <<< 255)) ||| 1#256 <<< 254

/-- SC_CLAMP (R143); the result is not reduced mod L. -/
def execScClamp (rd ra : Idx) (s : State) : Host.Outcome State Fault Refusal :=
  complete s (wordWrite rd (clamp (s.word ra)))

end Sys2Proof.Machine
end

