-- ==== Sys2Proof/Machine/Dispatch.lean ====
section
/-! DEFINITION. The meaning of each command: the completion step of R102 for it. -/

namespace Sys2Proof.Machine

def exec (i : Instr) (s : State) : Host.Outcome State Fault Refusal :=
  match i with
  | .nop => Sys2Proof.Machine.execNop s
  | .feAdd rd ra rb => Sys2Proof.Machine.execFeAdd rd ra rb s
  | .feSub rd ra rb => Sys2Proof.Machine.execFeSub rd ra rb s
  | .feMul rd ra rb => Sys2Proof.Machine.execFeMul rd ra rb s
  | .feSqr rd ra => Sys2Proof.Machine.execFeSqr rd ra s
  | .feInv rd ra => Sys2Proof.Machine.execFeInv rd ra s
  | .fePow rd ra rb => Sys2Proof.Machine.execFePow rd ra rb s
  | .feCsel rd ra rb rc => Sys2Proof.Machine.execFeCsel rd ra rb rc s
  | .scRed512 rd ra => Sys2Proof.Machine.execScRed512 rd ra s
  | .scMuladd rd ra rb rc => Sys2Proof.Machine.execScMuladd rd ra rb rc s
  | .scClamp rd ra => Sys2Proof.Machine.execScClamp rd ra s
  | .ptAdd rd ra rb => Sys2Proof.Machine.execPtAdd rd ra rb s
  | .ptDbl rd ra => Sys2Proof.Machine.execPtDbl rd ra s
  | .ptSmul rd ra rb => Sys2Proof.Machine.execPtSmul rd ra rb s
  | .ptSmulb rd ra => Sys2Proof.Machine.execPtSmulb rd ra s
  | .ptEnc rd ra => Sys2Proof.Machine.execPtEnc rd ra s
  | .ptDec rd ra => Sys2Proof.Machine.execPtDec rd ra s

end Sys2Proof.Machine
end

