-- ==== Sys2Proof/Machine/Engine.lean ====
section
/-! DEFINITION. The Engine's one step (R102, R103): decode LASTCMD and complete it. -/

namespace Sys2Proof.Machine

/-- The completion step of LASTCMD, taken when BUSY = 1: the checks in R103's order, then the command's meaning. -/
def engineStep (s : State) : Host.Outcome State Fault Refusal :=
  match decode s.lastcmd with
  | .reservedField => raise s .reservedField
  | .illegalOpcode => raise s .illegalOpcode
  | .instr i => exec i s

/-- The Engine's turn: enabled exactly when BUSY = 1 (R102), else nothing happens (log 1). -/
def engineTurn (s : State) : Host.Outcome State Fault Refusal :=
  if s.busy then engineStep s else .next s

end Sys2Proof.Machine
end

