-- ==== Sys2Proof/Machine/Events.lean ====
section
/-! DEFINITION. What one event does: a bus transfer, the Engine's turn, a change of `rst_n` (R61, R102, R230). -/

namespace Sys2Proof.Machine

/-- One event, already taken from the agenda. While `rst_n` is low every piece of state is held at its reset value and
a transfer that arrives is lost, without an answer (R230; log 7). -/
def runEvent (e : Event) (s : State) : Host.Outcome State Fault Refusal :=
  match s.rstN, e with
  | true, .access t => .next (busAccess s t)
  | true, .engine => engineTurn s
  | true, .rstPin true => .next s
  | true, .rstPin false => .next (hardReset s)
  | false, .rstPin true => .next (releaseReset s)
  | false, _ => .next (applyReset s)

/-- Nothing more comes from outside: a busy block completes its command (weak fairness, R106), a quiescent one stays
as it is (R110), and a block in reset stays held (R230). -/
def runQuiet (s : State) : Host.Outcome State Fault Refusal :=
  if s.rstN then engineTurn s else .next (applyReset s)

end Sys2Proof.Machine
end

