-- ==== Sys2Proof/Machine/Step.lean ====
section
/-! DEFINITION. One step: the next event of the agenda, in the one total order of R61 (log 1). -/

namespace Sys2Proof.Machine

/-- One step of the block: the agenda's next event, or with an empty agenda the Engine's turn. -/
def step (s : State) : Host.Outcome State Fault Refusal :=
  match s.agenda with
  | [] => runQuiet s
  | e :: rest => runEvent e { s with agenda := rest }

/-- The command word `w` placed where the Engine takes its next command: accepted into LASTCMD (R100), and nothing on
the agenda before its completion (log 2). -/
def State.withFetchWord (s : State) (nbits w : Nat) : State :=
  { accept s (BitVec.ofNat 32 (w % 2 ^ nbits)) with rstN := true, agenda := [] }

end Sys2Proof.Machine
end

