-- ==== Sys2Proof/Machine/Bytes.lean ====
section
/-! DEFINITION. Little-endian byte views: the bytes of the window (R53), 32-byte values as words (R54) and 64-byte
values as pairs (R55). -/

namespace Sys2Proof.Machine

/-- The number whose byte i, lowest first, is the i-th byte: the sum of b[i] * 256^i (R54, R55). -/
def natOfBytes : List Byte → Nat
  | [] => 0
  | b :: bs => b.toNat + 256 * natOfBytes bs

/-- The lowest `n` bytes of a number, byte 0 first. -/
def bytesOfNat : Nat → Nat → List Byte
  | 0, _ => []
  | n + 1, v => BitVec.ofNat 8 v :: bytesOfNat n (v / 256)

/-- A 32-byte value, byte 0 first, as an operand word (R54). -/
def wordOfBytes (b : List Byte) : Word := BitVec.ofNat 256 (natOfBytes b)

/-- An operand word as its 32 bytes, byte 0 first (R54). -/
def bytesOfWord (v : Word) : List Byte := bytesOfNat 32 v.toNat

/-- A 64-byte value as the low and the high word of a pair (R55). -/
def pairOfBytes (h : List Byte) : Word × Word := (wordOfBytes (h.take 32), wordOfBytes (h.drop 32))

/-- Byte lane k of a bus word: bits 8k+7 : 8k (R53). -/
def byteLane (v : BusWord) (k : Fin 4) : Byte := v.extractLsb' (8 * k.val) 8

/-- Byte i of W[n], which a byte-addressed host sees at offset 0x100 + 32n + i (R53). -/
def State.operandByte (s : State) (n : Idx) (i : Fin 32) : Byte := (s.word n).extractLsb' (8 * i.val) 8

end Sys2Proof.Machine
end

