-- ==== Sys2Proof/Machine/HostProgram.lean ====
section
/-! DEFINITION. What a host does, written as events for the agenda: the host notation of R92, and the
pseudo-instructions of R91. -/

namespace Sys2Proof.Machine

/-- `MemRead(off, 4)` as an event. -/
def hostRead (off : BitVec 12) : Event := .access (readTransfer off)

/-- `MemWrite(off, 4, v)` as an event. -/
def hostWrite (off : BitVec 12) (v : BusWord) : Event := .access (writeTransfer off v)

/-- The lanes j = 0..7 of an operand word. -/
def lanes : List (Fin 8) := [0, 1, 2, 3, 4, 5, 6, 7]

/-- `WRITE wN = v` (R92). -/
def hostWriteWord (n : Idx) (v : Word) : List Event := lanes.map fun j => hostWrite (laneOffset n j) (getLane v j)

/-- `READ wN` (R92): its eight reads. -/
def hostReadWord (n : Idx) : List Event := lanes.map fun j => hostRead (laneOffset n j)

/-- The word that eight values read, lane 0 first, stand for (R52, R92). -/
def wordOfLanes (f : Fin 8 → BusWord) : Word := lanes.foldl (fun v j => setLane v j (f j)) 0#256

/-- `ISSUE c` (R92). -/
def hostIssue (c : BusWord) : List Event := [hostWrite 0x00C#12 c]

/-- `WAIT` (R92) on a busy block: `polls` reads of STATUS that see BUSY = 1, the completion, and the last read. -/
def hostWait (polls : Nat) : List Event :=
  List.replicate polls (hostRead 0x008#12) ++ [.engine, hostRead 0x008#12]

/-- `RUN <command>` (R92). -/
def hostRun (i : Instr) (polls : Nat) : List Event := hostIssue (encode i) ++ hostWait polls

/-- `MOV wd, wa` (R91). -/
def pseudoMov (wd wa : Idx) : List Instr := [.feCsel wd wa wa 0]

/-- `PT_MOV Pd, Pa` (R91), given by the slots' first words w(4d) and w(4a). -/
def pseudoPtMov (d a : Idx) : List Instr :=
  pseudoMov d a ++ pseudoMov (d + 1) (a + 1) ++ pseudoMov (d + 2) (a + 2) ++ pseudoMov (d + 3) (a + 3)

/-- `FE_RED wd, wa, wone` (R91). -/
def pseudoFeRed (wd wa wone : Idx) : List Instr := [.feMul wd wa wone]

end Sys2Proof.Machine
end

