-- ==== Sys2Proof/Safety.lean ====
section
/-! DEFINITION. The terms claims are stated in: what a command reads and writes, the record a completion leaves, and
the invariant every step keeps. -/

namespace Sys2Proof.Machine

/-- The four indices of a point slot (R22). -/
def slotIndices (i : Idx) : List Idx := [i, i + 1, i + 2, i + 3]

/-- The operand words a command's rule names as destinations (R82, R85, R105). -/
def destinations : Instr → List Idx
  | .nop => []
  | .feAdd rd _ _ => [rd]
  | .feSub rd _ _ => [rd]
  | .feMul rd _ _ => [rd]
  | .feSqr rd _ => [rd]
  | .feInv rd _ => [rd]
  | .fePow rd _ _ => [rd]
  | .feCsel rd _ _ _ => [rd]
  | .scRed512 rd _ => [rd]
  | .scMuladd rd _ _ _ => [rd]
  | .scClamp rd _ => [rd]
  | .ptAdd rd _ _ => slotIndices rd
  | .ptDbl rd _ => slotIndices rd
  | .ptSmul rd _ _ => slotIndices rd
  | .ptSmulb rd _ => slotIndices rd
  | .ptEnc rd _ => [rd]
  | .ptDec rd _ => slotIndices rd

/-- The operand words a command's rule reads (R82, R85): PT_DBL and PT_ENC do not read T (R171, R174). -/
def sources : Instr → List Idx
  | .nop => []
  | .feAdd _ ra rb => [ra, rb]
  | .feSub _ ra rb => [ra, rb]
  | .feMul _ ra rb => [ra, rb]
  | .feSqr _ ra => [ra]
  | .feInv _ ra => [ra]
  | .fePow _ ra rb => [ra, rb]
  | .feCsel _ ra rb rc => [ra, rb, rc]
  | .scRed512 _ ra => [ra, ra + 1]
  | .scMuladd _ ra rb rc => [ra, rb, rc]
  | .scClamp _ ra => [ra]
  | .ptAdd _ ra rb => slotIndices ra ++ slotIndices rb
  | .ptDbl _ ra => [ra, ra + 1, ra + 2]
  | .ptSmul _ ra rb => slotIndices ra ++ [rb]
  | .ptSmulb _ ra => [ra]
  | .ptEnc _ ra => [ra, ra + 1, ra + 2]
  | .ptDec _ ra => [ra]

/-- The bits of a command word that its OP makes it use: OP and RSV, and the fields of R85's row. -/
def usedMask : Instr → BusWord
  | .nop => 0xF00000FF#32
  | .feAdd _ _ _ => 0xF07FFFFF#32
  | .feSub _ _ _ => 0xF07FFFFF#32
  | .feMul _ _ _ => 0xF07FFFFF#32
  | .feSqr _ _ => 0xF003FFFF#32
  | .feInv _ _ => 0xF003FFFF#32
  | .fePow _ _ _ => 0xF07FFFFF#32
  | .feCsel _ _ _ _ => 0xFFFFFFFF#32
  | .scRed512 _ _ => 0xF003FFFF#32
  | .scMuladd _ _ _ _ => 0xFFFFFFFF#32
  | .scClamp _ _ => 0xF003FFFF#32
  | .ptAdd _ _ _ => 0xF07FFFFF#32
  | .ptDbl _ _ => 0xF003FFFF#32
  | .ptSmul _ _ _ => 0xF07FFFFF#32
  | .ptSmulb _ _ => 0xF003FFFF#32
  | .ptEnc _ _ => 0xF003FFFF#32
  | .ptDec _ _ => 0xF003FFFF#32

/-- `t` is `s` after a completion with `code`, as to everything but the operand file and the draw counter: DONE, ERR
and BUSY are written (R102), the rest is as it was. -/
structure CompletedFrom (s t : State) (code : BitVec 4) : Prop where
  err : t.err = code
  busy : t.busy = false
  done : t.done = true
  cmdovr : t.cmdovr = s.cmdovr
  accerr : t.accerr = s.accerr
  ie : t.ie = s.ie
  lastcmd : t.lastcmd = s.lastcmd
  drso : t.drso = s.drso
  rstN : t.rstN = s.rstN
  agenda : t.agenda = s.agenda
  resp : t.resp = s.resp

/-- Every operand word outside `ds` is unchanged. -/
def WordsSameExcept (s t : State) (ds : List Idx) : Prop := ∀ j : Idx, j ∉ ds → t.word j = s.word j

/-- The command completes without error and writes exactly the word `v` to W[rd]; nothing else changes. -/
def WritesWord (i : Instr) (s : State) (rd : Idx) (v : Nat) : Prop :=
  ∃ t, exec i s = .next t ∧ CompletedFrom s t 0#4 ∧ t.draws = s.draws ∧ WordsSameExcept s t [rd] ∧
    (t.word rd).toNat = v

/-- The command completes without error and writes exactly the slot at W[rd], with the coordinates given; nothing else
changes. -/
def WritesSlot (i : Instr) (s : State) (rd : Idx) (e : Ext) : Prop :=
  ∃ t, exec i s = .next t ∧ CompletedFrom s t 0#4 ∧ t.draws = s.draws ∧ WordsSameExcept s t (slotIndices rd) ∧
    (t.word rd).toNat = e.x ∧ (t.word (rd + 1)).toNat = e.y ∧ (t.word (rd + 2)).toNat = e.z ∧
    (t.word (rd + 3)).toNat = e.t

/-- The command completes with an error: no operand is written (R105). -/
def EndsWithError (i : Instr) (s : State) (e : ErrCode) : Prop :=
  ∃ t, exec i s = .next t ∧ CompletedFrom s t e.code ∧ t.draws = s.draws ∧ t.w = s.w

/-- The block's own state is at R37's reset values. -/
structure AtReset (s : State) : Prop where
  w : ∀ i : Idx, s.word i = 0#256
  busy : s.busy = false
  done : s.done = false
  cmdovr : s.cmdovr = false
  accerr : s.accerr = false
  ie : s.ie = false
  err : s.err = 0#4
  lastcmd : s.lastcmd = 0x00000000#32

/-- The invariant: codes 5 to 15 never occur and ERR reads 0 while BUSY (R29), BUSY and DONE exclude each other
(R26, R27, R100, R102), and a block held in reset is at its reset values (R230). -/
structure Inv (s : State) : Prop where
  errLegal : s.err.toNat ≤ 4
  busyClean : s.busy = true → s.done = false ∧ s.err = 0#4
  held : s.rstN = false → AtReset s

/-- The OP values that R86 lists as reserved. -/
def ReservedOpcode (op : Nat) : Prop :=
  (0x01 ≤ op ∧ op ≤ 0x0F) ∨ (0x17 ≤ op ∧ op ≤ 0x1F) ∨ (0x23 ≤ op ∧ op ≤ 0x2F) ∨ (0x36 ≤ op ∧ op ≤ 0xFF)

/-- With `rst_n` high, a transfer that is next on the agenda is served in one step, and leaves `t` with the rest of the
agenda. -/
def Serves (s : State) (tr : Transfer) (t : State) : Prop :=
  ∀ rest, step { s with rstN := true, agenda := .access tr :: rest } = .next { t with rstN := true, agenda := rest }

/-- -x^2 + y^2 = 1 + d*x^2*y^2 mod p, over the integers (R160). -/
def SatisfiesCurve (q : Affine) : Prop :=
  ((q.y : Int) ^ 2 - (q.x : Int) ^ 2 - 1 - (curveD : Int) * (q.x : Int) ^ 2 * (q.y : Int) ^ 2) % (p : Int) = 0

/-- The step from `s` puts the block's state at its reset values: `rst_n` is low (also when it now goes high), `rst_n`
goes low, or CTRL.SRST is written (R230, R231). -/
def ResetsNext (s : State) : Prop :=
  s.rstN = false ∨ (∃ rest, s.agenda = .rstPin false :: rest) ∨
    ∃ tr rest, s.agenda = .access tr :: rest ∧ tr.accepted = true ∧ tr.we = true ∧ tr.addr = 0x004#12 ∧
      tr.wdata.getLsbD 1 = true

/-- The next event of the step from `s` is an accepted write of `off` with the data `v`. -/
def WritesNext (s : State) (off : BitVec 12) (v : BusWord) : Prop :=
  ∃ tr rest, s.agenda = .access tr :: rest ∧ tr.accepted = true ∧ tr.we = true ∧ tr.addr = off ∧ tr.wdata = v

/-- The Engine has the turn in the step from `s`. -/
def EngineNext (s : State) : Prop := s.agenda = [] ∨ ∃ rest, s.agenda = .engine :: rest

end Sys2Proof.Machine
end

