-- ==== Sys2Proof/Certificates/Slice0/Obligations.lean ====
section
/-! DEFINITION. The statements for the provers. Each docstring names the rule of spec/ it formalises; what a statement
says beyond the spec (the model's own choice) names its log entry. -/

open Sys2Proof Sys2Proof.Machine

/-! ### Encoding -/

/-- Decoding an encoded command gives it back, every operand at every index (R80, R81, R85). -/
def Obligations.DecodeOfEncodeIsTheCommand : Prop := ∀ i : Instr, decode (encode i) = .instr i

/-- A word decodes to a command exactly when OP, RSV and the fields the command uses are those of its encoding; every
other bit is ignored, and assembles to 0 (R87). -/
def Obligations.UnusedFieldsAreIgnored : Prop :=
  ∀ (c : BusWord) (i : Instr), decode c = .instr i ↔ c &&& usedMask i = encode i

/-- The decoder's two rejections, on exactly the words of R84 and R86. -/
def Obligations.DecoderRejectsExactlyReservedWords : Prop :=
  ∀ c : BusWord,
    (decode c = .reservedField ↔ c.extractLsb' 28 4 ≠ 0#4) ∧
    (decode c = .illegalOpcode ↔ c.extractLsb' 28 4 = 0#4 ∧ ReservedOpcode (c.extractLsb' 0 8).toNat)

/-- R93's worked encodings, both ways. -/
def Obligations.WorkedEncodings : Prop :=
  (decode 0x00000000#32 = .instr .nop ∧ encode .nop = 0x00000000#32) ∧
  (decode 0x00040212#32 = .instr (.feMul 2 0 1) ∧ encode (.feMul 2 0 1) = 0x00040212#32) ∧
  (decode 0x04040916#32 = .instr (.feCsel 9 0 1 8) ∧ encode (.feCsel 9 0 1 8) = 0x04040916#32) ∧
  (decode 0x00004420#32 = .instr (.scRed512 4 2) ∧ encode (.scRed512 4 2) = 0x00004420#32) ∧
  (decode 0x0398A821#32 = .instr (.scMuladd 8 5 6 7) ∧ encode (.scMuladd 8 5 6 7) = 0x0398A821#32) ∧
  (decode 0x00100830#32 = .instr (.ptAdd 8 0 4) ∧ encode (.ptAdd 8 0 4) = 0x00100830#32) ∧
  (decode 0x00408C32#32 = .instr (.ptSmul 12 4 16) ∧ encode (.ptSmul 12 4 16) = 0x00408C32#32) ∧
  (decode 0x00020035#32 = .instr (.ptDec 0 16) ∧ encode (.ptDec 0 16) = 0x00020035#32) ∧
  (decode 0x00011134#32 = .instr (.ptEnc 17 8) ∧ encode (.ptEnc 17 8) = 0x00011134#32)

/-! ### The completion step -/

/-- The Engine's turn runs exactly the command LASTCMD decodes to, with the event taken off the agenda; with BUSY = 0 it
leaves the state as it is (R102, R103; the turns themselves are the model's, log 1). -/
def Obligations.EngineTurnRunsDecodedCommand : Prop :=
  ∀ (s : State) (i : Instr), s.rstN = true → decode s.lastcmd = .instr i →
    (s.busy = true → s.agenda = [] → step s = exec i s) ∧
    (s.busy = true → ∀ rest, s.agenda = .engine :: rest → step s = exec i { s with agenda := rest }) ∧
    (s.busy = false → s.agenda = [] → step s = .next s) ∧
    (s.busy = false → ∀ rest, s.agenda = .engine :: rest → step s = .next { s with agenda := rest })

/-- A word with RSV ≠ 0 completes with RESERVED_FIELD whatever its OP (R84); with RSV = 0 a reserved OP completes with
ILLEGAL_OPCODE, and every other word is a command (R86). No operand is written. -/
def Obligations.RejectedWordsCompleteWithTheirCode : Prop :=
  ∀ s : State, s.rstN = true → s.busy = true → EngineNext s →
    (s.lastcmd.extractLsb' 28 4 ≠ 0#4 →
      ∃ t, step s = .next t ∧ CompletedFrom { s with agenda := s.agenda.tail } t 4#4 ∧ t.w = s.w ∧ t.draws = s.draws) ∧
    (s.lastcmd.extractLsb' 28 4 = 0#4 → ReservedOpcode (s.lastcmd.extractLsb' 0 8).toNat →
      ∃ t, step s = .next t ∧ CompletedFrom { s with agenda := s.agenda.tail } t 1#4 ∧ t.w = s.w ∧ t.draws = s.draws) ∧
    (s.lastcmd.extractLsb' 28 4 = 0#4 → ¬ ReservedOpcode (s.lastcmd.extractLsb' 0 8).toNat →
      ∃ i, decode s.lastcmd = .instr i)

/-- A violated alignment constraint completes with OPERAND_ALIGN and writes no operand; a command without constraint
never violates one (R88). -/
def Obligations.MisalignedOperandsCompleteWithOperandAlign : Prop :=
  ∀ (i : Instr) (s : State),
    (i.wellFormed = false → EndsWithError i s .operandAlign) ∧
    (i.wellFormed = false ↔
      (∃ rd ra, i = .scRed512 rd ra ∧ ra.val % 2 ≠ 0) ∨
      (∃ rd ra rb, i = .ptAdd rd ra rb ∧ (rd.val % 4 ≠ 0 ∨ ra.val % 4 ≠ 0 ∨ rb.val % 4 ≠ 0)) ∨
      (∃ rd ra, i = .ptDbl rd ra ∧ (rd.val % 4 ≠ 0 ∨ ra.val % 4 ≠ 0)) ∨
      (∃ rd ra rb, i = .ptSmul rd ra rb ∧ (rd.val % 4 ≠ 0 ∨ ra.val % 4 ≠ 0)) ∨
      (∃ rd ra, i = .ptSmulb rd ra ∧ rd.val % 4 ≠ 0) ∨
      (∃ rd ra, i = .ptEnc rd ra ∧ ra.val % 4 ≠ 0) ∨
      (∃ rd ra, i = .ptDec rd ra ∧ rd.val % 4 ≠ 0))

/-- A well-formed command completes with ERR = 0, but for PT_DEC, which can also complete with INVALID_ENCODING: no
arithmetic condition is an error (R201). -/
def Obligations.WellFormedCommandsCompleteWithoutError : Prop :=
  ∀ (i : Instr) (s : State), i.wellFormed = true →
    ∃ t, exec i s = .next t ∧ (t.err = 0#4 ∨ (t.err = 3#4 ∧ ∃ rd ra, i = .ptDec rd ra))

/-- Every command completes: DONE, ERR and BUSY are written and no other register; with an error no operand is written,
without one no word outside the destinations changes (R102, R105). -/
def Obligations.EveryCommandCompletes : Prop :=
  ∀ (i : Instr) (s : State), ∃ t c, exec i s = .next t ∧ CompletedFrom s t c ∧
    (c ≠ 0#4 → t.w = s.w ∧ t.draws = s.draws) ∧ (c = 0#4 → WordsSameExcept s t (destinations i)) ∧
    (t.draws ≠ s.draws → ∃ rd ra rb, i = .ptSmul rd ra rb)

/-- NOP completes with ERR = 0 and writes nothing; the word 0 is a NOP, its only error is RESERVED_FIELD, and run from
reset it leaves STATUS = 2 and the operand file as it was (R107). -/
def Obligations.NopCompletes : Prop :=
  (∀ s : State, ∃ t, exec .nop s = .next t ∧ CompletedFrom s t 0#4 ∧ t.w = s.w ∧ t.draws = s.draws) ∧
  (∀ c : BusWord, (c.extractLsb' 0 8 = 0#8 → c.extractLsb' 28 4 = 0#4 → decode c = .instr .nop) ∧
    (c.extractLsb' 0 8 = 0#8 → c.extractLsb' 28 4 ≠ 0#4 → decode c = .reservedField)) ∧
  decode State.reset.lastcmd = .instr .nop ∧
  (∃ t, Sys2Proof.core.run 2 { State.reset with agenda := hostIssue 0x00000000#32 } = .next t ∧
    State.statusWord t = 0x00000002#32 ∧ State.w t = State.reset.w)

/-! ### Field commands -/

/-- FE_ADD writes (a + b) mod p (R121). -/
def Obligations.FeAddWritesSum : Prop :=
  ∀ (rd ra rb : Idx) (s : State), WritesWord (.feAdd rd ra rb) s rd ((s.uint ra + s.uint rb) % p) ∧
    fieldOP (encode (.feAdd rd ra rb)) = 0x10

/-- FE_SUB writes (a - b) mod p, in [0, p), RA minus RB (R122). -/
def Obligations.FeSubWritesDifference : Prop :=
  ∀ (rd ra rb : Idx) (s : State),
    WritesWord (.feSub rd ra rb) s rd ((((s.uint ra : Int) - (s.uint rb : Int)) % (p : Int)).toNat) ∧
    fieldOP (encode (.feSub rd ra rb)) = 0x11

/-- FE_MUL writes (a * b) mod p (R123). -/
def Obligations.FeMulWritesProduct : Prop :=
  ∀ (rd ra rb : Idx) (s : State), WritesWord (.feMul rd ra rb) s rd (s.uint ra * s.uint rb % p)

/-- FE_SQR writes (a * a) mod p, which is what FE_MUL writes for RA = RB (R124). -/
def Obligations.FeSqrWritesSquare : Prop :=
  ∀ (rd ra : Idx) (s : State), WritesWord (.feSqr rd ra) s rd (s.uint ra * s.uint ra % p) ∧
    exec (.feSqr rd ra) s = exec (.feMul rd ra ra) s ∧ fieldOP (encode (.feSqr rd ra)) = 0x13

/-- FE_INV writes a^(p-2) mod p, for every word, without an error (R125). -/
def Obligations.FeInvWritesPower : Prop :=
  ∀ (rd ra : Idx) (s : State), WritesWord (.feInv rd ra) s rd (s.uint ra ^ (p - 2) % p)

/-- FE_POW writes a^e mod p for all 256 bits of the exponent, with x^0 = 1 (R126). -/
def Obligations.FePowWritesPower : Prop :=
  ∀ (rd ra rb : Idx) (s : State), WritesWord (.fePow rd ra rb) s rd (s.uint ra ^ s.uint rb % p)

/-- FE_CSEL copies W[RB] if bit 0 of W[RC] is 1 and W[RA] otherwise, bit for bit (R127). -/
def Obligations.FeCselCopiesSelectedWord : Prop :=
  ∀ (rd ra rb rc : Idx) (s : State),
    (s.uint rc % 2 = 1 → WritesWord (.feCsel rd ra rb rc) s rd (s.uint rb)) ∧
    (s.uint rc % 2 = 0 → WritesWord (.feCsel rd ra rb rc) s rd (s.uint ra))

/-- FE_MUL(a, FE_INV(a)) = 1 exactly when a mod p ≠ 0, and is 0 otherwise (R125, R128). -/
def Obligations.FeInvIsTheInverse : Prop :=
  ∀ (rd ra re : Idx) (s t u : State), rd ≠ ra → exec (.feInv rd ra) s = .next t → exec (.feMul re ra rd) t = .next u →
    (s.uint ra % p ≠ 0 → u.uint re = 1) ∧ (s.uint ra % p = 0 → u.uint re = 0)

/-- The six arithmetic field commands write a canonical word: below p, with bit 255 clear (R120). -/
def Obligations.FieldResultsAreCanonical : Prop :=
  ∀ (rd ra rb : Idx) (i : Instr) (s : State),
    (i = .feAdd rd ra rb ∨ i = .feSub rd ra rb ∨ i = .feMul rd ra rb ∨ i = .feSqr rd ra ∨ i = .feInv rd ra ∨
      i = .fePow rd ra rb) →
    ∃ t, exec i s = .next t ∧ t.err = 0#4 ∧ t.uint rd < p ∧ (t.word rd).getLsbD 255 = false

/-- FE_POW with the exponents p-2, 2, 1 and 0 (R126). -/
def Obligations.FePowSpecialExponents : Prop :=
  ∀ (rd ra rb : Idx) (s : State),
    (s.uint rb = p - 2 → exec (.fePow rd ra rb) s = exec (.feInv rd ra) s) ∧
    (s.uint rb = 2 → exec (.fePow rd ra rb) s = exec (.feSqr rd ra) s) ∧
    (s.uint rb = 1 → WritesWord (.fePow rd ra rb) s rd (s.uint ra % p)) ∧
    (s.uint rb = 0 → WritesWord (.fePow rd ra rb) s rd 1)

/-- MOV is one FE_CSEL, which copies a word unchanged whatever the flag word; PT_MOV is its four copies, which one after
another copy a slot and change no other word; FE_RED is one FE_MUL, which by a word holding 1 reduces mod p (R91). -/
def Obligations.MovAndFeRedExpansions : Prop :=
  ∀ (d a one : Idx) (s : State),
    pseudoMov d a = [.feCsel d a a 0] ∧ WritesWord (.feCsel d a a 0) s d (s.uint a) ∧
    pseudoFeRed d a one = [.feMul d a one] ∧ (s.uint one = 1 → WritesWord (.feMul d a one) s d (s.uint a % p)) ∧
    pseudoPtMov d a =
      [.feCsel d a a 0, .feCsel (d + 1) (a + 1) (a + 1) 0, .feCsel (d + 2) (a + 2) (a + 2) 0,
        .feCsel (d + 3) (a + 3) (a + 3) 0] ∧
    (d.val % 4 = 0 → a.val % 4 = 0 →
      ∃ t₁ t₂ t₃ t₄, exec (.feCsel d a a 0) s = .next t₁ ∧ exec (.feCsel (d + 1) (a + 1) (a + 1) 0) t₁ = .next t₂ ∧
        exec (.feCsel (d + 2) (a + 2) (a + 2) 0) t₂ = .next t₃ ∧ exec (.feCsel (d + 3) (a + 3) (a + 3) 0) t₃ = .next t₄ ∧
        CompletedFrom s t₄ 0#4 ∧ t₄.slot d = s.slot a ∧ WordsSameExcept s t₄ (slotIndices d))

/-! ### Scalar commands -/

/-- SC_RED512 writes the 512-bit pair mod L; an odd RA ends with OPERAND_ALIGN (R141). -/
def Obligations.ScRed512WritesResidue : Prop :=
  ∀ (rd ra : Idx) (s : State),
    (ra.val % 2 = 0 →
      WritesWord (.scRed512 rd ra) s rd ((s.uint ra + 2 ^ 256 * s.uint (ra + 1)) % L)) ∧
    (ra.val % 2 ≠ 0 → EndsWithError (.scRed512 rd ra) s .operandAlign) ∧
    fieldOP (encode (.scRed512 rd ra)) = 0x20

/-- SC_MULADD writes (a*b + c) mod L, which is the result for the reduced inputs (R142). -/
def Obligations.ScMuladdWritesResidue : Prop :=
  ∀ (rd ra rb rc : Idx) (s : State),
    WritesWord (.scMuladd rd ra rb rc) s rd ((s.uint ra * s.uint rb + s.uint rc) % L) ∧
    (s.uint ra * s.uint rb + s.uint rc) % L = (s.uint ra % L * (s.uint rb % L) + s.uint rc % L) % L ∧
    fieldOP (encode (.scMuladd rd ra rb rc)) = 0x21

/-- SC_CLAMP clears bits 2:0 and 255, sets bit 254 and copies bits 253:3; the result lies in [2^254, 2^255), is a
multiple of 8, and clamping it again leaves it unchanged (R143). -/
def Obligations.ScClampForcesBits : Prop :=
  ∀ (rd ra : Idx) (s : State), ∃ t, exec (.scClamp rd ra) s = .next t ∧ CompletedFrom s t 0#4 ∧ t.draws = s.draws ∧
    WordsSameExcept s t [rd] ∧
    (∀ k, k < 256 → (t.word rd).getLsbD k =
      if k < 3 then false else if k = 255 then false else if k = 254 then true else (s.word ra).getLsbD k) ∧
    2 ^ 254 ≤ t.uint rd ∧ t.uint rd < 2 ^ 255 ∧ t.uint rd % 8 = 0 ∧
    (∀ re, WritesWord (.scClamp re rd) t re (t.uint rd)) ∧ fieldOP (encode (.scClamp rd ra)) = 0x22

/-! ### Point commands -/

/-- PT_ADD writes the four coordinates of R170's formulas, each mod p, for any two slots. -/
def Obligations.PtAddWritesFormulas : Prop :=
  ∀ (rd ra rb : Idx) (s : State), rd.val % 4 = 0 → ra.val % 4 = 0 → rb.val % 4 = 0 →
    let X1 : Int := s.uint ra; let Y1 : Int := s.uint (ra + 1); let Z1 : Int := s.uint (ra + 2)
    let T1 : Int := s.uint (ra + 3)
    let X2 : Int := s.uint rb; let Y2 : Int := s.uint (rb + 1); let Z2 : Int := s.uint (rb + 2)
    let T2 : Int := s.uint (rb + 3)
    let A := (Y1 - X1) * (Y2 - X2); let B := (Y1 + X1) * (Y2 + X2); let C := T1 * (2 * curveD) * T2; let D := Z1 * 2 * Z2
    let E := B - A; let F := D - C; let G := D + C; let H := B + A
    ∃ t, exec (.ptAdd rd ra rb) s = .next t ∧ CompletedFrom s t 0#4 ∧ t.draws = s.draws ∧
      WordsSameExcept s t (slotIndices rd) ∧
      (t.uint rd : Int) = E * F % p ∧ (t.uint (rd + 1) : Int) = G * H % p ∧ (t.uint (rd + 2) : Int) = F * G % p ∧
      (t.uint (rd + 3) : Int) = E * H % p

/-- PT_DBL writes the four coordinates of R171's formulas, each mod p, for any slot; T is not read. -/
def Obligations.PtDblWritesFormulas : Prop :=
  ∀ (rd ra : Idx) (s : State), rd.val % 4 = 0 → ra.val % 4 = 0 →
    let X1 : Int := s.uint ra; let Y1 : Int := s.uint (ra + 1); let Z1 : Int := s.uint (ra + 2)
    let A := X1 * X1; let B := Y1 * Y1; let C := 2 * Z1 * Z1; let H := A + B
    let E := H - (X1 + Y1) * (X1 + Y1); let G := A - B; let F := C + G
    ∃ t, exec (.ptDbl rd ra) s = .next t ∧ CompletedFrom s t 0#4 ∧ t.draws = s.draws ∧
      WordsSameExcept s t (slotIndices rd) ∧
      (t.uint rd : Int) = E * F % p ∧ (t.uint (rd + 1) : Int) = G * H % p ∧ (t.uint (rd + 2) : Int) = F * G % p ∧
      (t.uint (rd + 3) : Int) = E * H % p

/-- For valid slots PT_ADD writes a valid slot that represents the sum, with no exceptional case (R170, R176). -/
def Obligations.PtAddAddsPoints : Prop :=
  ∀ (rd ra rb : Idx) (s : State), rd.val % 4 = 0 → ra.val % 4 = 0 → rb.val % 4 = 0 →
    validPoint (extOf (s.slot ra)) = true → validPoint (extOf (s.slot rb)) = true →
    ∃ t, exec (.ptAdd rd ra rb) s = .next t ∧ t.err = 0#4 ∧ validPoint (extOf (t.slot rd)) = true ∧
      aff (extOf (t.slot rd)) = affAdd (aff (extOf (s.slot ra))) (aff (extOf (s.slot rb)))

/-- For a valid slot PT_DBL writes a valid slot that represents 2·P, which is P + P (R171, R176). -/
def Obligations.PtDblDoublesPoint : Prop :=
  ∀ (rd ra : Idx) (s : State), rd.val % 4 = 0 → ra.val % 4 = 0 → validPoint (extOf (s.slot ra)) = true →
    ∃ t, exec (.ptDbl rd ra) s = .next t ∧ t.err = 0#4 ∧ validPoint (extOf (t.slot rd)) = true ∧
      aff (extOf (t.slot rd)) = nsmul 2 (aff (extOf (s.slot ra))) ∧
      aff (extOf (t.slot rd)) = affAdd (aff (extOf (s.slot ra))) (aff (extOf (s.slot ra)))

/-- For a valid slot PT_SMUL writes norm(k·aff(P)), the multiple of R163 by all 256 bits of the scalar (R172). -/
def Obligations.PtSmulWritesNormalisedMultiple : Prop :=
  ∀ (rd ra rb : Idx) (s : State), rd.val % 4 = 0 → ra.val % 4 = 0 → validPoint (extOf (s.slot ra)) = true →
    WritesSlot (.ptSmul rd ra rb) s rd (normPoint (nsmul (s.uint rb) (aff (extOf (s.slot ra)))))

/-- For an invalid slot PT_SMUL completes with ERR = 0 and writes the next draw of SMUL_INVALID to the slot and nothing
else (R172). The draw is a free value; the counter is the model's (log 3). -/
def Obligations.PtSmulDrawsForInvalidPoint : Prop :=
  ∀ (rd ra rb : Idx) (s : State), rd.val % 4 = 0 → ra.val % 4 = 0 → validPoint (extOf (s.slot ra)) = false →
    ∃ t, exec (.ptSmul rd ra rb) s = .next t ∧ CompletedFrom s t 0#4 ∧ t.draws = s.draws + 1 ∧
      WordsSameExcept s t (slotIndices rd) ∧ t.slot rd = Config.smulInvalid s.draws (s.slot ra) (s.word rb)

/-- PT_SMULB writes norm(k·B) (R173). -/
def Obligations.PtSmulbWritesNormalisedMultiple : Prop :=
  ∀ (rd ra : Idx) (s : State), rd.val % 4 = 0 →
    WritesSlot (.ptSmulb rd ra) s rd (normPoint (nsmul (s.uint ra) basePoint))

/-- PT_SMULB(k) = PT_SMUL(norm(B), k) (R176). -/
def Obligations.PtSmulbIsPtSmulOfTheBasePoint : Prop :=
  ∀ (rd ra rb : Idx) (s : State), rd.val % 4 = 0 → ra.val % 4 = 0 →
    s.slot ra = wordsOf (normPoint basePoint) → exec (.ptSmul rd ra rb) s = exec (.ptSmulb rd rb) s

/-- L·B is the identity, so scalars that agree mod L give the same words, and a multiple of L gives (0, 1, 1, 0)
(R13, R173). -/
def Obligations.BaseMultiplesDependOnScalarModL : Prop :=
  ∀ (rd ra ra' : Idx) (s : State), rd.val % 4 = 0 →
    (s.uint ra % L = s.uint ra' % L → exec (.ptSmulb rd ra) s = exec (.ptSmulb rd ra') s) ∧
    (s.uint ra % L = 0 → WritesSlot (.ptSmulb rd ra) s rd ⟨0, 1, 1, 0⟩)

/-- PT_ENC writes y + 2^255*(x mod 2) with x = X*Z^(p-2) and y = Y*Z^(p-2) mod p, for any slot; so for Z = 0 mod p it
writes 0, and for a valid slot encode(aff(P)). An RA that is no multiple of 4 ends with OPERAND_ALIGN (R174). -/
def Obligations.PtEncWritesEncoding : Prop :=
  ∀ (rd ra : Idx) (s : State),
    (ra.val % 4 = 0 → WritesWord (.ptEnc rd ra) s rd
      (s.uint (ra + 1) * s.uint (ra + 2) ^ (p - 2) % p + 2 ^ 255 * (s.uint ra * s.uint (ra + 2) ^ (p - 2) % p % 2))) ∧
    (ra.val % 4 = 0 → s.uint (ra + 2) % p = 0 → WritesWord (.ptEnc rd ra) s rd 0) ∧
    (ra.val % 4 = 0 → validPoint (extOf (s.slot ra)) = true →
      WritesWord (.ptEnc rd ra) s rd (encodePoint (aff (extOf (s.slot ra)))).toNat) ∧
    (ra.val % 4 ≠ 0 → EndsWithError (.ptEnc rd ra) s .operandAlign) ∧ fieldOP (encode (.ptEnc rd ra)) = 0x34

/-- PT_ENC words of two valid slots are equal exactly when the slots represent the same point (R161, R174). -/
def Obligations.PtEncDecidesPointEquality : Prop :=
  ∀ (rd ra rb : Idx) (s : State), ra.val % 4 = 0 → rb.val % 4 = 0 →
    validPoint (extOf (s.slot ra)) = true → validPoint (extOf (s.slot rb)) = true →
    ∃ t u, exec (.ptEnc rd ra) s = .next t ∧ exec (.ptEnc rd rb) s = .next u ∧
      (t.word rd = u.word rd ↔ aff (extOf (s.slot ra)) = aff (extOf (s.slot rb)))

/-- PT_DEC writes norm(x, y) for the curve point (x, y) whose encoding is the word, unless the small-order policy
rejects it; where there is no such point it ends with INVALID_ENCODING, and a misaligned RD with OPERAND_ALIGN (R165,
R175). -/
def Obligations.PtDecDecodesExactlyTheEncodings : Prop :=
  ∀ (rd ra : Idx) (s : State),
    (rd.val % 4 = 0 → ∀ q : Affine, q.x < p → q.y < p → SatisfiesCurve q →
      q.y + 2 ^ 255 * (q.x % 2) = s.uint ra →
      ((s.drso = true → nsmul 8 q ≠ identity) → WritesSlot (.ptDec rd ra) s rd (normPoint q)) ∧
      (s.drso = true → nsmul 8 q = identity → EndsWithError (.ptDec rd ra) s .invalidEncoding)) ∧
    (rd.val % 4 = 0 →
      (¬ ∃ q : Affine, q.x < p ∧ q.y < p ∧ SatisfiesCurve q ∧ q.y + 2 ^ 255 * (q.x % 2) = s.uint ra) →
      EndsWithError (.ptDec rd ra) s .invalidEncoding) ∧
    (rd.val % 4 ≠ 0 → EndsWithError (.ptDec rd ra) s .operandAlign) ∧ fieldOP (encode (.ptDec rd ra)) = 0x35

/-- PT_ENC(PT_DEC(w)) = w whenever PT_DEC(w) succeeds (R176). -/
def Obligations.PtEncAfterPtDecIsTheWord : Prop :=
  ∀ (rd ra re : Idx) (s t : State), exec (.ptDec rd ra) s = .next t → t.err = 0#4 →
    WritesWord (.ptEnc re rd) t re (s.uint ra)

/-- PT_DEC(PT_ENC(P)) succeeds and equals norm(aff(P)) when DEC_REJECT_SMALL_ORDER = false (R176). -/
def Obligations.PtDecAfterPtEncIsTheNormalisedPoint : Prop :=
  ∀ (rd ra re : Idx) (s t : State), rd.val % 4 = 0 → ra.val % 4 = 0 → s.drso = false →
    validPoint (extOf (s.slot ra)) = true → exec (.ptEnc re ra) s = .next t →
    WritesSlot (.ptDec rd re) t rd (normPoint (aff (extOf (s.slot ra))))

/-- A command's result depends on its source words alone: where two states agree on them (and on the parameter and the
model's draw counter, log 3 and log 4), the command completes with the same code and writes the same words
(R82, R103, R104). -/
def Obligations.SourceWordsDetermineTheResult : Prop :=
  ∀ (i : Instr) (s s' : State), s.drso = s'.drso → s.draws = s'.draws → (∀ j ∈ sources i, s.word j = s'.word j) →
    ∃ t t', exec i s = .next t ∧ exec i s' = .next t' ∧ t.err = t'.err ∧
      (t.err = 0#4 → ∀ j ∈ destinations i, t.word j = t'.word j)

/-! ### The bus -/

/-- Every transfer but an aligned 32-bit one with all strobes ends with BusError and changes no state (R56). The strobes
of a read and the mark of a burst are the model's (log 9). -/
def Obligations.OtherTransfersEndInBusError : Prop :=
  ∀ (s : State) (tr : Transfer),
    (tr.size ≠ 2#2 ∨ tr.addr.toNat % 4 ≠ 0 ∨ tr.burst = true ∨ (tr.we = true ∧ tr.wstrb ≠ 0xF#4)) →
    Serves s tr { s with resp := some .busError }

/-- With BUSY = 0 a lane of an operand word reads as its 32 bits and is written alone; the lanes cover 0x100-0x4FF
exactly (R52). -/
def Obligations.OperandLanesReadAndWrite : Prop :=
  ∀ (s : State) (n : Idx) (j : Fin 8) (v : BusWord), s.busy = false →
    Serves s (readTransfer (laneOffset n j)) { s with resp := some (.data ((s.word n).extractLsb' (32 * j.val) 32)) } ∧
    (∃ w, Serves s (writeTransfer (laneOffset n j) v) { s with w := w, resp := some .okWrite } ∧
      (∀ m : Idx, m ≠ n → w[m.val] = s.word m) ∧
      (∀ j' : Fin 8, (w[n.val]).extractLsb' (32 * j'.val) 32 =
        if j' = j then v else (s.word n).extractLsb' (32 * j'.val) 32)) ∧
    (∀ off : BitVec 12, off.toNat % 4 = 0 →
      ((0x100 ≤ off.toNat ∧ off.toNat ≤ 0x4FF) ↔ ∃ m i, off = laneOffset m i))

/-- While BUSY = 1 a read of the operand window returns 0 and a write changes nothing; both set ACCERR, and neither is
a bus error (R58). -/
def Obligations.BusyOperandAccessIsRefused : Prop :=
  ∀ (s : State) (off : BitVec 12) (v : BusWord), s.busy = true → off.toNat % 4 = 0 → 0x100 ≤ off.toNat →
    off.toNat ≤ 0x4FF →
    Serves s (readTransfer off) { s with accerr := true, resp := some (.data 0#32) } ∧
    Serves s (writeTransfer off v) { s with accerr := true, resp := some .okWrite }

/-- CMD: a write while BUSY = 0 accepts the word, whatever it is, one while BUSY = 1 is dropped and sets CMDOVR, and a
read returns LASTCMD, whose reset value 0 encodes NOP (R32, R100, R101). -/
def Obligations.CmdRegisterAcceptsOrDrops : Prop :=
  ∀ (s : State) (c : BusWord),
    (s.busy = false → Serves s (writeTransfer 0x00C#12 c)
      { s with lastcmd := c, busy := true, done := false, err := 0#4, resp := some .okWrite }) ∧
    (s.busy = true → Serves s (writeTransfer 0x00C#12 c) { s with cmdovr := true, resp := some .okWrite }) ∧
    Serves s (readTransfer 0x00C#12) { s with resp := some (.data s.lastcmd) } ∧
    State.reset.lastcmd = 0x00000000#32 ∧ decode 0x00000000#32 = .instr .nop

/-- STATUS: the fields as they read, and a write that clears exactly the W1C bits written as 1 (R25). -/
def Obligations.StatusRegisterFields : Prop :=
  ∀ (s : State) (v : BusWord),
    (∃ r : BusWord, Serves s (readTransfer 0x008#12) { s with resp := some (.data r) } ∧
      r.getLsbD 0 = s.busy ∧ r.getLsbD 1 = s.done ∧ r.getLsbD 2 = s.cmdovr ∧ r.getLsbD 3 = s.accerr ∧
      r.extractLsb' 4 4 = s.err ∧ r.extractLsb' 8 24 = 0#24) ∧
    Serves s (writeTransfer 0x008#12 v)
      { s with
        done := if v.getLsbD 1 then false else s.done
        cmdovr := if v.getLsbD 2 then false else s.cmdovr
        accerr := if v.getLsbD 3 then false else s.accerr
        resp := some .okWrite } ∧
    State.reset.statusWord = 0#32

/-- ID and PARAM read their constants and ignore writes (R30, R33); every offset no rule names reads 0 and ignores
writes, without a bus error (R34). -/
def Obligations.ConstantAndReservedOffsets : Prop :=
  ∀ (s : State) (v : BusWord),
    Serves s (readTransfer 0x000#12) { s with resp := some (.data 0xED250100#32) } ∧
    Serves s (writeTransfer 0x000#12 v) { s with resp := some .okWrite } ∧
    Serves s (readTransfer 0x010#12)
      { s with resp := some (.data (if s.drso then 0x00000120#32 else 0x00000020#32)) } ∧
    Serves s (writeTransfer 0x010#12 v) { s with resp := some .okWrite } ∧
    (∀ off : BitVec 12, off.toNat % 4 = 0 →
      ((0x014 ≤ off.toNat ∧ off.toNat ≤ 0x0FF) ∨ (0x500 ≤ off.toNat ∧ off.toNat ≤ 0xFFF)) →
      Serves s (readTransfer off) { s with resp := some (.data 0#32) } ∧
      Serves s (writeTransfer off v) { s with resp := some .okWrite })

/-- CTRL: IE reads in bit 0 and nothing else; a write with bit 1 = 1 is the soft reset, whatever its other bits and
whatever BUSY, and one with bit 1 = 0 sets IE to bit 0 (R31, R231). What a soft reset leaves beyond the block's state is
the model's (log 14). -/
def Obligations.CtrlRegisterEnablesAndResets : Prop :=
  ∀ (s : State) (v : BusWord),
    Serves s (readTransfer 0x004#12) { s with resp := some (.data (if s.ie then 1#32 else 0#32)) } ∧
    (v.getLsbD 1 = false →
      Serves s (writeTransfer 0x004#12 v) { s with ie := v.getLsbD 0, resp := some .okWrite }) ∧
    (v.getLsbD 1 = true → ∃ t, Serves s (writeTransfer 0x004#12 v) t ∧ AtReset t ∧ t.resp = some .okWrite ∧
      t.drso = s.drso ∧ t.draws = s.draws) ∧
    State.reset.ctrlWord = 0#32

/-- `rst_n` going low puts every piece of state at its reset value, also with BUSY = 1, when the command is aborted and
DONE stays 0; the block is held there, a transfer that arrives is lost, and going high leaves it idle (R230, R232; the
lost transfer's missing answer is log 7). -/
def Obligations.HardResetHoldsTheBlock : Prop :=
  ∀ (s : State) (rest : List Event),
    (s.rstN = true → s.agenda = .rstPin false :: rest →
      ∃ t, step s = .next t ∧ AtReset t ∧ t.irq = false ∧ t.rstN = false ∧ t.agenda = rest ∧ t.drso = s.drso) ∧
    (s.rstN = false → ∀ e, s.agenda = e :: rest → e ≠ .rstPin true →
      ∃ t, step s = .next t ∧ AtReset t ∧ t.irq = false ∧ t.rstN = false ∧ t.agenda = rest ∧ t.resp = none) ∧
    (s.rstN = false → s.agenda = .rstPin true :: rest →
      ∃ t, step s = .next t ∧ AtReset t ∧ t.irq = false ∧ t.rstN = true ∧ t.agenda = rest)

/-- `irq` is DONE AND IE: every completion, whatever its ERR, asserts it exactly when IE is set, acceptance and a STATUS
write of bit 1 drop it, and setting IE while DONE asserts it at once (R36, R205, R206). The second clause is the
completion of any LASTCMD, a rejected word (ERR 4 or 1) among them, the third that of each command. -/
def Obligations.IrqFollowsDoneAndIe : Prop :=
  (∀ s : State, s.irq = (s.done && s.ie)) ∧
  (∀ s : State, ∃ t, engineStep s = .next t ∧ t.irq = s.ie) ∧
  (∀ (i : Instr) (s : State), ∃ t, exec i s = .next t ∧ t.irq = s.ie) ∧
  (∀ (s : State) (c : BusWord), s.busy = false → ∃ t, Serves s (writeTransfer 0x00C#12 c) t ∧ t.irq = false) ∧
  (∀ (s : State) (v : BusWord), v.getLsbD 1 = true → ∃ t, Serves s (writeTransfer 0x008#12 v) t ∧ t.irq = false) ∧
  (∀ s : State, s.done = true → ∃ t, Serves s (writeTransfer 0x004#12 1#32) t ∧ t.irq = true)

/-- The little-endian byte views (R53 to R55): byte lane k of lane j is byte 4j + k of the word; a word is the sum of its
32 bytes times 256^i, and a pair is that of its 64 bytes. -/
def Obligations.ByteViewsAreLittleEndian : Prop :=
  (∀ (v : Word) (j : Fin 8) (k : Fin 4), byteLane (getLane v j) k = v.extractLsb' (8 * (4 * j.val + k.val)) 8) ∧
  (∀ v : Word, wordOfBytes (bytesOfWord v) = v ∧ (bytesOfWord v).length = 32 ∧
    ∀ i, i < 32 → (bytesOfWord v)[i]? = some (v.extractLsb' (8 * i) 8)) ∧
  (∀ b : List Byte, b.length = 32 → bytesOfWord (wordOfBytes b) = b) ∧
  (∀ h : List Byte, h.length = 64 →
    (pairOfBytes h).1.toNat + 2 ^ 256 * (pairOfBytes h).2.toNat = natOfBytes h)

/-- `WRITE wN = v` on an idle block leaves v in W[N] and every other word as it was (R52, R92). -/
def Obligations.HostWriteLoadsTheWord : Prop :=
  ∀ (s : State) (n : Idx) (v : Word), s.busy = false → s.rstN = true → s.agenda = hostWriteWord n v →
    ∃ t, Sys2Proof.core.run 8 s = .next t ∧ State.word t n = v ∧ WordsSameExcept s t [n] ∧ State.agenda t = [] ∧
      State.busy t = false

/-- `RUN i` on an idle block, with any number of polls before the completion: the operand words, ERR and the draws are
those of `exec i` on the words as they stood, LASTCMD is the command's encoding, and the last read of STATUS shows the
completed block (R92, R100, R102; the polls' place in the order is the model's, log 1). -/
def Obligations.HostRunExecutesTheCommand : Prop :=
  ∀ (s : State) (i : Instr) (polls : Nat), s.busy = false → s.rstN = true → s.agenda = hostRun i polls →
    ∃ t u, exec i s = .next t ∧ Sys2Proof.core.run (polls + 3) s = .next u ∧ State.w u = t.w ∧ State.err u = t.err ∧
      State.draws u = t.draws ∧ State.busy u = false ∧ State.done u = true ∧ State.lastcmd u = encode i ∧
      State.agenda u = [] ∧ State.resp u = some (.data (State.statusWord u))

/-! ### The whole machine -/

/-- Every state has a next state, whatever the event: the block has no trap (R207). For a transfer while `rst_n` is low,
which I16 gives no step, that is the model's choice (log 7); that no step changes the parameter rests on R33 and log 4. -/
def Obligations.EveryStepHasANextState : Prop := ∀ s : State, ∃ t, step s = .next t ∧ t.drso = s.drso

/-- CMDOVR and ACCERR are sticky: only a STATUS write with a 1 in the bit's position, or a reset, clears them (R28). -/
def Obligations.StickyBitsClearOnlyByW1cOrReset : Prop :=
  ∀ s t : State, step s = .next t →
    (s.cmdovr = true → t.cmdovr = false → ResetsNext s ∨ ∃ v, WritesNext s 0x008#12 v ∧ v.getLsbD 2 = true) ∧
    (s.accerr = true → t.accerr = false → ResetsNext s ∨ ∃ v, WritesNext s 0x008#12 v ∧ v.getLsbD 3 = true)

/-- An operand word changes only by a completion, by a write of its lane while BUSY = 0, or by a reset (R20, R58,
R66). -/
def Obligations.OperandFileChangesOnlyAsTheRulesSay : Prop :=
  ∀ (s t : State) (m : Idx), step s = .next t → t.word m ≠ s.word m →
    ResetsNext s ∨ (s.busy = true ∧ EngineNext s ∧ t.busy = false ∧ t.done = true) ∨
      (s.busy = false ∧ ∃ j v, WritesNext s (laneOffset m j) v)

/-- BUSY is set only by accepting a command and cleared only by its completion or a reset, and LASTCMD changes only with
an acceptance or a reset (R26, R32, R65). -/
def Obligations.BusyAndLastcmdChangeOnlyAsTheRulesSay : Prop :=
  ∀ s t : State, step s = .next t →
    (s.busy = false → t.busy = true → WritesNext s 0x00C#12 t.lastcmd) ∧
    (s.busy = true → t.busy = false → ResetsNext s ∨ (EngineNext s ∧ t.done = true)) ∧
    (t.lastcmd ≠ s.lastcmd → ResetsNext s ∨ (s.busy = false ∧ WritesNext s 0x00C#12 t.lastcmd))

/-- Every step keeps the invariant: ERR is a code of R200, a busy block has DONE = 0 and ERR = 0, and a block in reset
is at its reset values (R26, R27, R29, R230). -/
def Obligations.StepKeepsInvariant : Prop := ∀ s t : State, Inv s → step s = .next t → Inv t

/-- The invariant holds after reset. -/
def Obligations.ResetSatisfiesInvariant : Prop := Inv State.reset

/-- After reset every piece of the block's state is at R37's value, for both resets. PARAM = 0x20 is R33's word for
DEC_REJECT_SMALL_ORDER = false, the default that `State.reset` takes (log 4). -/
def Obligations.ResetValues : Prop :=
  AtReset State.reset ∧ State.reset.irq = false ∧
  (∀ s : State, AtReset (hardReset s) ∧ (hardReset s).irq = false) ∧
  (∀ (s : State) (v : BusWord), v.getLsbD 1 = true → AtReset (memWrite s 0x004#12 v) ∧ (memWrite s 0x004#12 v).irq = false) ∧
  idWord = 0xED250100#32 ∧ State.reset.paramWord = 0x00000020#32

/-- Every run ends idle: one step after the last event from outside the block has BUSY = 0. Where the block is still busy
when the agenda runs out and `rst_n` is high, that step is the completion of LASTCMD, with its code and words and DONE = 1
(R102, R106); where it is idle, it stays as it is (R110). The order of events is the model's (log 1), and so is the step
of a transfer while `rst_n` is low (log 7). -/
def Obligations.EveryRunEndsIdle : Prop :=
  ∀ s : State, ∃ u t, Sys2Proof.core.run s.agenda.length s = .next u ∧ State.agenda u = [] ∧
    Sys2Proof.core.run (s.agenda.length + 1) s = .next t ∧ State.agenda t = [] ∧ State.busy t = false ∧
    (State.rstN u = true → State.busy u = true → engineStep u = .next t ∧ State.done t = true) ∧
    (State.rstN u = true → State.busy u = false → t = u) ∧
    (State.rstN u = false → AtReset t)

/-- Bus accesses do not disturb a running command: whatever transfers arrive before its completion, none of them a soft
reset, it completes as if it had completed at once on the operand words as they stood (R57, R58, R65, R101). -/
def Obligations.RunningCommandIsUndisturbed : Prop :=
  ∀ (s : State) (i : Instr) (trs : List Transfer), s.rstN = true → s.busy = true → decode s.lastcmd = .instr i →
    s.agenda = trs.map Event.access →
    (∀ tr ∈ trs, ¬ (tr.accepted = true ∧ tr.we = true ∧ tr.addr = 0x004#12 ∧ tr.wdata.getLsbD 1 = true)) →
    ∃ t u, exec i { s with agenda := [] } = .next t ∧ Sys2Proof.core.run (trs.length + 1) s = .next u ∧
      State.w u = t.w ∧ State.err u = t.err ∧ State.busy u = false ∧ State.done u = true ∧
      State.lastcmd u = s.lastcmd ∧ State.draws u = t.draws
end

