-- ==== Sys2Proof/Laws/State.lean ====
section
/-! SUPPORT. What each update of the state leaves in each field, true by rfl. -/

namespace Sys2Proof.Laws

open Sys2Proof.Machine

@[simp] theorem finish_w (s : State) (c : BitVec 4) : (finish s c).w = s.w := rfl
@[simp] theorem finish_busy (s : State) (c : BitVec 4) : (finish s c).busy = false := rfl
@[simp] theorem finish_done (s : State) (c : BitVec 4) : (finish s c).done = true := rfl
@[simp] theorem finish_cmdovr (s : State) (c : BitVec 4) : (finish s c).cmdovr = s.cmdovr := rfl
@[simp] theorem finish_accerr (s : State) (c : BitVec 4) : (finish s c).accerr = s.accerr := rfl
@[simp] theorem finish_ie (s : State) (c : BitVec 4) : (finish s c).ie = s.ie := rfl
@[simp] theorem finish_err (s : State) (c : BitVec 4) : (finish s c).err = c := rfl
@[simp] theorem finish_lastcmd (s : State) (c : BitVec 4) : (finish s c).lastcmd = s.lastcmd := rfl
@[simp] theorem finish_drso (s : State) (c : BitVec 4) : (finish s c).drso = s.drso := rfl
@[simp] theorem finish_rstN (s : State) (c : BitVec 4) : (finish s c).rstN = s.rstN := rfl
@[simp] theorem finish_agenda (s : State) (c : BitVec 4) : (finish s c).agenda = s.agenda := rfl
@[simp] theorem finish_resp (s : State) (c : BitVec 4) : (finish s c).resp = s.resp := rfl
@[simp] theorem finish_draws (s : State) (c : BitVec 4) : (finish s c).draws = s.draws := rfl

@[simp] theorem accept_w (s : State) (c : BusWord) : (accept s c).w = s.w := rfl
@[simp] theorem accept_busy (s : State) (c : BusWord) : (accept s c).busy = true := rfl
@[simp] theorem accept_done (s : State) (c : BusWord) : (accept s c).done = false := rfl
@[simp] theorem accept_cmdovr (s : State) (c : BusWord) : (accept s c).cmdovr = s.cmdovr := rfl
@[simp] theorem accept_accerr (s : State) (c : BusWord) : (accept s c).accerr = s.accerr := rfl
@[simp] theorem accept_ie (s : State) (c : BusWord) : (accept s c).ie = s.ie := rfl
@[simp] theorem accept_err (s : State) (c : BusWord) : (accept s c).err = 0#4 := rfl
@[simp] theorem accept_lastcmd (s : State) (c : BusWord) : (accept s c).lastcmd = c := rfl
@[simp] theorem accept_drso (s : State) (c : BusWord) : (accept s c).drso = s.drso := rfl
@[simp] theorem accept_rstN (s : State) (c : BusWord) : (accept s c).rstN = s.rstN := rfl
@[simp] theorem accept_agenda (s : State) (c : BusWord) : (accept s c).agenda = s.agenda := rfl
@[simp] theorem accept_resp (s : State) (c : BusWord) : (accept s c).resp = s.resp := rfl
@[simp] theorem accept_draws (s : State) (c : BusWord) : (accept s c).draws = s.draws := rfl

@[simp] theorem dropCommand_w (s : State) : (dropCommand s).w = s.w := rfl
@[simp] theorem dropCommand_busy (s : State) : (dropCommand s).busy = s.busy := rfl
@[simp] theorem dropCommand_done (s : State) : (dropCommand s).done = s.done := rfl
@[simp] theorem dropCommand_cmdovr (s : State) : (dropCommand s).cmdovr = true := rfl
@[simp] theorem dropCommand_accerr (s : State) : (dropCommand s).accerr = s.accerr := rfl
@[simp] theorem dropCommand_ie (s : State) : (dropCommand s).ie = s.ie := rfl
@[simp] theorem dropCommand_err (s : State) : (dropCommand s).err = s.err := rfl
@[simp] theorem dropCommand_lastcmd (s : State) : (dropCommand s).lastcmd = s.lastcmd := rfl
@[simp] theorem dropCommand_drso (s : State) : (dropCommand s).drso = s.drso := rfl
@[simp] theorem dropCommand_rstN (s : State) : (dropCommand s).rstN = s.rstN := rfl
@[simp] theorem dropCommand_agenda (s : State) : (dropCommand s).agenda = s.agenda := rfl
@[simp] theorem dropCommand_resp (s : State) : (dropCommand s).resp = s.resp := rfl
@[simp] theorem dropCommand_draws (s : State) : (dropCommand s).draws = s.draws := rfl

@[simp] theorem refuseOperandAccess_w (s : State) : (refuseOperandAccess s).w = s.w := rfl
@[simp] theorem refuseOperandAccess_busy (s : State) : (refuseOperandAccess s).busy = s.busy := rfl
@[simp] theorem refuseOperandAccess_done (s : State) : (refuseOperandAccess s).done = s.done := rfl
@[simp] theorem refuseOperandAccess_cmdovr (s : State) : (refuseOperandAccess s).cmdovr = s.cmdovr := rfl
@[simp] theorem refuseOperandAccess_accerr (s : State) : (refuseOperandAccess s).accerr = true := rfl
@[simp] theorem refuseOperandAccess_ie (s : State) : (refuseOperandAccess s).ie = s.ie := rfl
@[simp] theorem refuseOperandAccess_err (s : State) : (refuseOperandAccess s).err = s.err := rfl
@[simp] theorem refuseOperandAccess_lastcmd (s : State) : (refuseOperandAccess s).lastcmd = s.lastcmd := rfl
@[simp] theorem refuseOperandAccess_drso (s : State) : (refuseOperandAccess s).drso = s.drso := rfl
@[simp] theorem refuseOperandAccess_rstN (s : State) : (refuseOperandAccess s).rstN = s.rstN := rfl
@[simp] theorem refuseOperandAccess_agenda (s : State) : (refuseOperandAccess s).agenda = s.agenda := rfl
@[simp] theorem refuseOperandAccess_resp (s : State) : (refuseOperandAccess s).resp = s.resp := rfl
@[simp] theorem refuseOperandAccess_draws (s : State) : (refuseOperandAccess s).draws = s.draws := rfl

@[simp] theorem writeStatus_w (s : State) (v : BusWord) : (writeStatus s v).w = s.w := rfl
@[simp] theorem writeStatus_busy (s : State) (v : BusWord) : (writeStatus s v).busy = s.busy := rfl
@[simp] theorem writeStatus_done (s : State) (v : BusWord) : (writeStatus s v).done = (s.done && !v.getLsbD 1) := rfl
@[simp] theorem writeStatus_cmdovr (s : State) (v : BusWord) : (writeStatus s v).cmdovr = (s.cmdovr && !v.getLsbD 2) := rfl
@[simp] theorem writeStatus_accerr (s : State) (v : BusWord) : (writeStatus s v).accerr = (s.accerr && !v.getLsbD 3) := rfl
@[simp] theorem writeStatus_ie (s : State) (v : BusWord) : (writeStatus s v).ie = s.ie := rfl
@[simp] theorem writeStatus_err (s : State) (v : BusWord) : (writeStatus s v).err = s.err := rfl
@[simp] theorem writeStatus_lastcmd (s : State) (v : BusWord) : (writeStatus s v).lastcmd = s.lastcmd := rfl
@[simp] theorem writeStatus_drso (s : State) (v : BusWord) : (writeStatus s v).drso = s.drso := rfl
@[simp] theorem writeStatus_rstN (s : State) (v : BusWord) : (writeStatus s v).rstN = s.rstN := rfl
@[simp] theorem writeStatus_agenda (s : State) (v : BusWord) : (writeStatus s v).agenda = s.agenda := rfl
@[simp] theorem writeStatus_resp (s : State) (v : BusWord) : (writeStatus s v).resp = s.resp := rfl
@[simp] theorem writeStatus_draws (s : State) (v : BusWord) : (writeStatus s v).draws = s.draws := rfl

@[simp] theorem applyReset_w (s : State) : (applyReset s).w = Vector.replicate 32 0#256 := rfl
@[simp] theorem applyReset_busy (s : State) : (applyReset s).busy = false := rfl
@[simp] theorem applyReset_done (s : State) : (applyReset s).done = false := rfl
@[simp] theorem applyReset_cmdovr (s : State) : (applyReset s).cmdovr = false := rfl
@[simp] theorem applyReset_accerr (s : State) : (applyReset s).accerr = false := rfl
@[simp] theorem applyReset_ie (s : State) : (applyReset s).ie = false := rfl
@[simp] theorem applyReset_err (s : State) : (applyReset s).err = 0#4 := rfl
@[simp] theorem applyReset_lastcmd (s : State) : (applyReset s).lastcmd = 0x00000000#32 := rfl
@[simp] theorem applyReset_drso (s : State) : (applyReset s).drso = s.drso := rfl
@[simp] theorem applyReset_rstN (s : State) : (applyReset s).rstN = s.rstN := rfl
@[simp] theorem applyReset_agenda (s : State) : (applyReset s).agenda = s.agenda := rfl
@[simp] theorem applyReset_resp (s : State) : (applyReset s).resp = none := rfl
@[simp] theorem applyReset_draws (s : State) : (applyReset s).draws = s.draws := rfl

@[simp] theorem hardReset_w (s : State) : (hardReset s).w = Vector.replicate 32 0#256 := rfl
@[simp] theorem hardReset_busy (s : State) : (hardReset s).busy = false := rfl
@[simp] theorem hardReset_done (s : State) : (hardReset s).done = false := rfl
@[simp] theorem hardReset_cmdovr (s : State) : (hardReset s).cmdovr = false := rfl
@[simp] theorem hardReset_accerr (s : State) : (hardReset s).accerr = false := rfl
@[simp] theorem hardReset_ie (s : State) : (hardReset s).ie = false := rfl
@[simp] theorem hardReset_err (s : State) : (hardReset s).err = 0#4 := rfl
@[simp] theorem hardReset_lastcmd (s : State) : (hardReset s).lastcmd = 0x00000000#32 := rfl
@[simp] theorem hardReset_drso (s : State) : (hardReset s).drso = s.drso := rfl
@[simp] theorem hardReset_rstN (s : State) : (hardReset s).rstN = false := rfl
@[simp] theorem hardReset_agenda (s : State) : (hardReset s).agenda = s.agenda := rfl
@[simp] theorem hardReset_resp (s : State) : (hardReset s).resp = none := rfl
@[simp] theorem hardReset_draws (s : State) : (hardReset s).draws = s.draws := rfl

@[simp] theorem releaseReset_w (s : State) : (releaseReset s).w = Vector.replicate 32 0#256 := rfl
@[simp] theorem releaseReset_busy (s : State) : (releaseReset s).busy = false := rfl
@[simp] theorem releaseReset_done (s : State) : (releaseReset s).done = false := rfl
@[simp] theorem releaseReset_cmdovr (s : State) : (releaseReset s).cmdovr = false := rfl
@[simp] theorem releaseReset_accerr (s : State) : (releaseReset s).accerr = false := rfl
@[simp] theorem releaseReset_ie (s : State) : (releaseReset s).ie = false := rfl
@[simp] theorem releaseReset_err (s : State) : (releaseReset s).err = 0#4 := rfl
@[simp] theorem releaseReset_lastcmd (s : State) : (releaseReset s).lastcmd = 0x00000000#32 := rfl
@[simp] theorem releaseReset_drso (s : State) : (releaseReset s).drso = s.drso := rfl
@[simp] theorem releaseReset_rstN (s : State) : (releaseReset s).rstN = true := rfl
@[simp] theorem releaseReset_agenda (s : State) : (releaseReset s).agenda = s.agenda := rfl
@[simp] theorem releaseReset_resp (s : State) : (releaseReset s).resp = none := rfl
@[simp] theorem releaseReset_draws (s : State) : (releaseReset s).draws = s.draws := rfl

@[simp] theorem reset_w : State.reset.w = Vector.replicate 32 0#256 := rfl
@[simp] theorem reset_busy : State.reset.busy = false := rfl
@[simp] theorem reset_done : State.reset.done = false := rfl
@[simp] theorem reset_cmdovr : State.reset.cmdovr = false := rfl
@[simp] theorem reset_accerr : State.reset.accerr = false := rfl
@[simp] theorem reset_ie : State.reset.ie = false := rfl
@[simp] theorem reset_err : State.reset.err = 0#4 := rfl
@[simp] theorem reset_lastcmd : State.reset.lastcmd = 0x00000000#32 := rfl
@[simp] theorem reset_rstN : State.reset.rstN = true := rfl
@[simp] theorem reset_agenda : State.reset.agenda = [] := rfl

end Sys2Proof.Laws
end

