-- ==== Sys2Proof/Laws/Ops.lean ====
section
/-! SUPPORT. One spec lemma per shared operation: the operand file, the completion, and what exec can do. -/

namespace Sys2Proof.Laws

open Sys2Proof.Machine

/-- W[j] after W[i] <- v (R21: words do not alias). -/
theorem getElem_setWord (w : Vector Word 32) (i j : Idx) (v : Word) :
    (setWord w i v)[j.val] = if j = i then v else w[j.val] := by
  simp only [setWord, Vector.getElem_set, Fin.ext_iff, eq_comm]

/-- A word no write names is unchanged. -/
theorem getElem_applyWrites_of_notMem (w : Vector Word 32) (ws : List (Idx × Word)) (j : Idx)
    (h : j ∉ ws.map Prod.fst) : (applyWrites w ws)[j.val] = w[j.val] := by
  induction ws generalizing w with
  | nil => rfl
  | cons a ws ih =>
    simp only [List.map_cons, List.mem_cons, not_or] at h
    rw [applyWrites, ih _ h.2, getElem_setWord, if_neg h.1]

/-- The one word of a word write. -/
theorem getElem_wordWrite (w : Vector Word 32) (i j : Idx) (v : Word) :
    (applyWrites w (wordWrite i v))[j.val] = if j = i then v else w[j.val] := getElem_setWord w i j v

/-- The four indices of a slot are different. -/
theorem slotIndices_nodup (i : Idx) : i ≠ i + 1 ∧ i ≠ i + 2 ∧ i ≠ i + 3 ∧ i + 1 ≠ i + 2 ∧ i + 1 ≠ i + 3 ∧ i + 2 ≠ i + 3 := by
  revert i
  decide

/-- The four words of a slot write. -/
theorem getElem_slotWrites (w : Vector Word 32) (i j : Idx) (pw : PointWords) :
    (applyWrites w (slotWrites i pw))[j.val] =
      if j = i + 3 then pw.t else if j = i + 2 then pw.z else if j = i + 1 then pw.y else if j = i then pw.x
      else w[j.val] := by
  simp only [slotWrites, applyWrites, getElem_setWord]

/-- What a completion without error answers (R102). -/
theorem complete_eq (s : State) (ws : List (Idx × Word)) :
    complete s ws = .next (finish { s with w := applyWrites s.w ws } 0#4) := rfl

/-- What a completion with an error answers (R102, R105). -/
theorem raise_eq (s : State) (e : ErrCode) : raise s e = .next (finish s e.code) := rfl

theorem finish_completedFrom (s : State) (w : Vector Word 32) (n : Nat) (c : BitVec 4) :
    CompletedFrom s (finish { s with w := w, draws := n } c) c := by
  constructor <;> rfl

/-- A word write completes as its statement says. -/
theorem writesWord_of_eq {i : Instr} {s : State} {rd : Idx} {v : Word} (h : exec i s = complete s (wordWrite rd v)) :
    WritesWord i s rd v.toNat := by
  refine ⟨_, h, finish_completedFrom s _ s.draws 0#4, rfl, ?_, ?_⟩
  · intro j hj
    have hne : j ≠ rd := by simpa using hj
    simp only [State.word, finish_w, getElem_wordWrite, if_neg hne]
  · simp only [State.word, finish_w, getElem_wordWrite, if_true]

/-- A slot write with coordinates below 2^256 completes as its statement says. -/
theorem writesSlot_of_eq {i : Instr} {s : State} {rd : Idx} {e : Ext}
    (h : exec i s = complete s (slotWrites rd (wordsOf e))) (hx : e.x < 2 ^ 256) (hy : e.y < 2 ^ 256)
    (hz : e.z < 2 ^ 256) (ht : e.t < 2 ^ 256) : WritesSlot i s rd e := by
  obtain ⟨n1, n2, n3, n4, n5, n6⟩ := slotIndices_nodup rd
  refine ⟨_, h, finish_completedFrom s _ s.draws 0#4, rfl, ?_, ?_, ?_, ?_, ?_⟩
  · intro j hj
    simp only [slotIndices, List.mem_cons, List.not_mem_nil, or_false, not_or] at hj
    obtain ⟨h0, h1, h2, h3⟩ := hj
    simp only [State.word, finish_w, getElem_slotWrites, if_neg h0, if_neg h1, if_neg h2, if_neg h3]
  · simp only [State.word, finish_w, getElem_slotWrites, if_neg n1, if_neg n2, if_neg n3, if_true, wordsOf,
      BitVec.toNat_ofNat, Nat.mod_eq_of_lt hx]
  · simp only [State.word, finish_w, getElem_slotWrites, if_neg n4, if_neg n5, if_true, wordsOf,
      BitVec.toNat_ofNat, Nat.mod_eq_of_lt hy]
  · simp only [State.word, finish_w, getElem_slotWrites, if_neg n6, if_true, wordsOf,
      BitVec.toNat_ofNat, Nat.mod_eq_of_lt hz]
  · simp only [State.word, finish_w, getElem_slotWrites, if_true, wordsOf, BitVec.toNat_ofNat, Nat.mod_eq_of_lt ht]

theorem endsWithError_of_eq {i : Instr} {s : State} {e : ErrCode} (h : exec i s = raise s e) : EndsWithError i s e :=
  ⟨_, h, finish_completedFrom s s.w s.draws e.code, rfl, rfl⟩

/-- The alignment checks of the meanings are WellFormed's. -/
theorem pointAligned_eq (i : Idx) : pointAligned i = Idx.namesPoint i := rfl

theorem pairAligned_eq (i : Idx) : pairAligned i = Idx.namesPair i := rfl

/-- PT_DEC on an aligned slot (R175). -/
theorem execPtDec_of_aligned (rd ra : Idx) (s : State) (h : pointAligned rd = true) :
    exec (.ptDec rd ra) s = match decodePoint s.drso (s.word ra) with
      | some q => complete s (slotWrites rd (wordsOf (normPoint q)))
      | none => raise s .invalidEncoding := if_pos h

/-- The four ways exec can end (R103): OPERAND_ALIGN for an ill-formed command, INVALID_ENCODING for PT_DEC alone,
a draw for PT_SMUL alone, and the writes of the command's destinations. -/
theorem exec_cases (i : Instr) (s : State) :
    (i.wellFormed = false ∧ exec i s = raise s .operandAlign) ∨
    (i.wellFormed = true ∧ (∃ rd ra, i = .ptDec rd ra) ∧ exec i s = raise s .invalidEncoding) ∨
    (i.wellFormed = true ∧ ∃ n ws, (n = s.draws ∨ (n = s.draws + 1 ∧ ∃ rd ra rb, i = .ptSmul rd ra rb)) ∧
      ws.map Prod.fst = destinations i ∧ exec i s = complete { s with draws := n } ws) := by
  have done1 : ∀ (rd : Idx) (v : Word), exec i s = complete s (wordWrite rd v) → destinations i = [rd] →
      ∃ n ws, (n = s.draws ∨ (n = s.draws + 1 ∧ ∃ rd ra rb, i = .ptSmul rd ra rb)) ∧
        ws.map Prod.fst = destinations i ∧ exec i s = complete { s with draws := n } ws :=
    fun rd v h hd => ⟨s.draws, wordWrite rd v, Or.inl rfl, by rw [hd]; rfl, h⟩
  have done4 : ∀ (rd : Idx) (pw : PointWords), exec i s = complete s (slotWrites rd pw) →
      destinations i = slotIndices rd →
      ∃ n ws, (n = s.draws ∨ (n = s.draws + 1 ∧ ∃ rd ra rb, i = .ptSmul rd ra rb)) ∧
        ws.map Prod.fst = destinations i ∧ exec i s = complete { s with draws := n } ws :=
    fun rd pw h hd => ⟨s.draws, slotWrites rd pw, Or.inl rfl, by rw [hd]; rfl, h⟩
  cases i with
  | nop => exact Or.inr (Or.inr ⟨rfl, s.draws, [], Or.inl rfl, rfl, rfl⟩)
  | feAdd rd ra rb => exact Or.inr (Or.inr ⟨rfl, done1 rd _ rfl rfl⟩)
  | feSub rd ra rb => exact Or.inr (Or.inr ⟨rfl, done1 rd _ rfl rfl⟩)
  | feMul rd ra rb => exact Or.inr (Or.inr ⟨rfl, done1 rd _ rfl rfl⟩)
  | feSqr rd ra => exact Or.inr (Or.inr ⟨rfl, done1 rd _ rfl rfl⟩)
  | feInv rd ra => exact Or.inr (Or.inr ⟨rfl, done1 rd _ rfl rfl⟩)
  | fePow rd ra rb => exact Or.inr (Or.inr ⟨rfl, done1 rd _ rfl rfl⟩)
  | feCsel rd ra rb rc => exact Or.inr (Or.inr ⟨rfl, done1 rd _ rfl rfl⟩)
  | scMuladd rd ra rb rc => exact Or.inr (Or.inr ⟨rfl, done1 rd _ rfl rfl⟩)
  | scClamp rd ra => exact Or.inr (Or.inr ⟨rfl, done1 rd _ rfl rfl⟩)
  | scRed512 rd ra =>
    by_cases hw : (pairAligned ra) = true
    · exact Or.inr (Or.inr ⟨hw, done1 rd _ (if_pos hw) rfl⟩)
    · exact Or.inl ⟨eq_false_of_ne_true hw, if_neg hw⟩
  | ptAdd rd ra rb =>
    by_cases hw : (pointAligned rd && pointAligned ra && pointAligned rb) = true
    · exact Or.inr (Or.inr ⟨hw, done4 rd _ (if_pos hw) rfl⟩)
    · exact Or.inl ⟨eq_false_of_ne_true hw, if_neg hw⟩
  | ptDbl rd ra =>
    by_cases hw : (pointAligned rd && pointAligned ra) = true
    · exact Or.inr (Or.inr ⟨hw, done4 rd _ (if_pos hw) rfl⟩)
    · exact Or.inl ⟨eq_false_of_ne_true hw, if_neg hw⟩
  | ptSmul rd ra rb =>
    by_cases hw : (pointAligned rd && pointAligned ra) = true
    · refine Or.inr (Or.inr ⟨hw, ?_⟩)
      by_cases hv : validPoint (extOf (s.slot ra)) = true
      · exact done4 rd _ ((if_pos hw).trans (if_pos hv)) rfl
      · exact ⟨s.draws + 1, slotWrites rd _, Or.inr ⟨rfl, rd, ra, rb, rfl⟩, rfl, (if_pos hw).trans (if_neg hv)⟩
    · exact Or.inl ⟨eq_false_of_ne_true hw, if_neg hw⟩
  | ptSmulb rd ra =>
    by_cases hw : (pointAligned rd) = true
    · exact Or.inr (Or.inr ⟨hw, done4 rd _ (if_pos hw) rfl⟩)
    · exact Or.inl ⟨eq_false_of_ne_true hw, if_neg hw⟩
  | ptEnc rd ra =>
    by_cases hw : (pointAligned ra) = true
    · exact Or.inr (Or.inr ⟨hw, done1 rd _ (if_pos hw) rfl⟩)
    · exact Or.inl ⟨eq_false_of_ne_true hw, if_neg hw⟩
  | ptDec rd ra =>
    by_cases hw : (pointAligned rd) = true
    · have he := execPtDec_of_aligned rd ra s hw
      cases hd : decodePoint s.drso (s.word ra) with
      | none =>
        rw [hd] at he
        exact Or.inr (Or.inl ⟨hw, ⟨rd, ra, rfl⟩, he⟩)
      | some q =>
        rw [hd] at he
        exact Or.inr (Or.inr ⟨hw, done4 rd _ he rfl⟩)
    · exact Or.inl ⟨eq_false_of_ne_true hw, if_neg hw⟩

/-- A word some write names holds the last value written to it, whatever it held before (R102). -/
theorem getElem_applyWrites_of_mem (w w' : Vector Word 32) (ws : List (Idx × Word)) (j : Idx)
    (h : j ∈ ws.map Prod.fst) : (applyWrites w ws)[j.val] = (applyWrites w' ws)[j.val] := by
  induction ws generalizing w w' with
  | nil => simp at h
  | cons a ws ih =>
    rw [applyWrites, applyWrites]
    by_cases hj : j ∈ ws.map Prod.fst
    · exact ih _ _ hj
    · rw [getElem_applyWrites_of_notMem _ _ _ hj, getElem_applyWrites_of_notMem _ _ _ hj, getElem_setWord,
        getElem_setWord]
      have he : j = a.1 := by simpa [hj] using h
      rw [if_pos he, if_pos he]

/-- A result below 2^256 as a word write. -/
theorem writesWord_toWord {i : Instr} {s : State} {rd : Idx} {n : Nat}
    (h : exec i s = complete s (wordWrite rd (toWord n))) (hn : n < 2 ^ 256) : WritesWord i s rd n := by
  have := writesWord_of_eq h
  rwa [toWord, BitVec.toNat_ofNat, Nat.mod_eq_of_lt hn] at this

end Sys2Proof.Laws
end

