-- ==== Sys2Proof/Laws/Bus.lean ====
section
/-! SUPPORT. The bus slave: the address map on the lanes of the operand window, reading a lane after writing one, and
what each access can change. -/

namespace Sys2Proof.Laws

open Sys2Proof.Machine

/-- The offset of a lane holds that lane (R51, R52). -/
theorem regionOf_laneOffset (n : Idx) (j : Fin 8) : regionOf (laneOffset n j) = .operand n j := by
  have hoff : (laneOffset n j).toNat = 0x100 + 32 * n.val + 4 * j.val := by
    rw [laneOffset, BitVec.toNat_ofNat, Nat.mod_eq_of_lt (by omega)]
  have hne : ∀ c : BitVec 12, c.toNat < 0x100 → laneOffset n j ≠ c := by
    intro c hc h
    rw [← h, hoff] at hc
    omega
  unfold regionOf
  rw [if_neg (hne _ (by decide)), if_neg (hne _ (by decide)), if_neg (hne _ (by decide)), if_neg (hne _ (by decide)),
    if_neg (hne _ (by decide)), dif_pos (by omega)]
  simp only [Region.operand.injEq, Fin.ext_iff, hoff]
  omega

/-- A region that is a lane is at that lane's offset, for an offset that is a multiple of 4. -/
theorem eq_laneOffset_of_regionOf {off : BitVec 12} {n : Idx} {j : Fin 8} (h : regionOf off = .operand n j)
    (ha : off.toNat % 4 = 0) : off = laneOffset n j := by
  unfold regionOf at h
  split_ifs at h with h1 h2 h3 h4 h5 h6
  simp only [Region.operand.injEq, Fin.ext_iff] at h
  apply BitVec.eq_of_toNat_eq
  rw [laneOffset, BitVec.toNat_ofNat, Nat.mod_eq_of_lt (by omega)]
  omega

/-- The lane that was written reads back (R52). -/
theorem getLane_setLane_same (v : Word) (j : Fin 8) (x : BusWord) : getLane (setLane v j x) j = x := by
  have hj : 32 * j.val + 32 ≤ 256 := by omega
  apply BitVec.eq_of_getElem_eq
  intro k hk
  simp only [getLane, setLane, BitVec.getElem_extractLsb', BitVec.getLsbD_or, BitVec.getLsbD_and, BitVec.getLsbD_not,
    BitVec.getLsbD_shiftLeft, BitVec.getLsbD_setWidth]
  have h1 : 32 * j.val + k < 256 := by omega
  have h2 : 32 * j.val + k - 32 * j.val = k := by omega
  have h3 : (0xFFFFFFFF#256).getLsbD k = true := by
    rw [BitVec.getLsbD_ofNat]
    interval_cases k <;> decide
  simp [h1, h2, h3, hk, show k < 256 by omega]

/-- Every other lane is unchanged (R52). -/
theorem getLane_setLane_other (v : Word) (j j' : Fin 8) (x : BusWord) (h : j' ≠ j) :
    getLane (setLane v j x) j' = getLane v j' := by
  have hne : j'.val ≠ j.val := fun e => h (Fin.ext e)
  apply BitVec.eq_of_getElem_eq
  intro k hk
  simp only [getLane, setLane, BitVec.getElem_extractLsb', BitVec.getLsbD_or, BitVec.getLsbD_and, BitVec.getLsbD_not,
    BitVec.getLsbD_shiftLeft, BitVec.getLsbD_setWidth]
  have h1 : 32 * j'.val + k < 256 := by omega
  rcases Nat.lt_or_ge (32 * j'.val + k) (32 * j.val) with hlt | hge
  · simp [h1, hlt]
  · have h2 : 32 ≤ 32 * j'.val + k - 32 * j.val := by omega
    have h3 : (0xFFFFFFFF#256).getLsbD (32 * j'.val + k - 32 * j.val) = false := by
      have : (0xFFFFFFFF#256) = (0xFFFFFFFF#32).setWidth 256 := by decide
      rw [this, BitVec.getLsbD_setWidth, BitVec.getLsbD_of_ge _ _ h2, Bool.and_false]
    have h4 : x.getLsbD (32 * j'.val + k - 32 * j.val) = false := BitVec.getLsbD_of_ge _ _ h2
    simp [h1, h3, h4]

/-- The state after a read is the state before it, but for ACCERR (R59). -/
theorem memRead_state (s : State) (off : BitVec 12) :
    (memRead s off).2 = s ∨ (s.busy = true ∧ (memRead s off).2 = refuseOperandAccess s) := by
  unfold memRead
  split <;> first | exact Or.inl rfl | skip
  split
  · exact Or.inr ⟨by assumption, rfl⟩
  · exact Or.inl rfl

/-- What a write can do to the state (R59). -/
theorem memWrite_state (s : State) (off : BitVec 12) (v : BusWord) :
    memWrite s off v = s ∨ (off = 0x004#12 ∧ memWrite s off v = writeCtrl s v) ∨
      (off = 0x008#12 ∧ memWrite s off v = writeStatus s v) ∨ (off = 0x00C#12 ∧ memWrite s off v = writeCommand s v) ∨
      (∃ n j, regionOf off = .operand n j ∧
        ((s.busy = true ∧ memWrite s off v = refuseOperandAccess s) ∨
          (s.busy = false ∧ memWrite s off v = { s with w := setWord s.w n (setLane (s.word n) j v) }))) := by
  by_cases h1 : off = 0x004#12
  · subst h1
    exact Or.inr (Or.inl ⟨rfl, rfl⟩)
  by_cases h2 : off = 0x008#12
  · subst h2
    exact Or.inr (Or.inr (Or.inl ⟨rfl, rfl⟩))
  by_cases h3 : off = 0x00C#12
  · subst h3
    exact Or.inr (Or.inr (Or.inr (Or.inl ⟨rfl, rfl⟩)))
  have hctrl : regionOf off ≠ .ctrl := by
    unfold regionOf
    split_ifs <;> simp
  have hstatus : regionOf off ≠ .status := by
    unfold regionOf
    split_ifs <;> simp
  have hcmd : regionOf off ≠ .cmd := by
    unfold regionOf
    split_ifs <;> simp
  cases hr : regionOf off with
  | id => exact Or.inl (by rw [memWrite, hr])
  | ctrl => exact absurd hr hctrl
  | status => exact absurd hr hstatus
  | cmd => exact absurd hr hcmd
  | param => exact Or.inl (by rw [memWrite, hr])
  | reserved => exact Or.inl (by rw [memWrite, hr])
  | operand n j =>
    refine Or.inr (Or.inr (Or.inr (Or.inr ⟨n, j, rfl, ?_⟩)))
    cases hb : s.busy
    · exact Or.inr ⟨rfl, by rw [memWrite, hr]; simp [hb]⟩
    · exact Or.inl ⟨rfl, by rw [memWrite, hr]; simp [hb]⟩

/-- Everything a transfer can do: an answer, and one of the side effects of R59 at most. -/
theorem busAccess_cases (s : State) (tr : Transfer) : ∃ s' r, busAccess s tr = { s' with resp := some r } ∧
    (s' = s ∨ (s.busy = true ∧ s' = refuseOperandAccess s) ∨
      (tr.accepted = true ∧ tr.we = true ∧
        ((tr.addr = 0x004#12 ∧ s' = writeCtrl s tr.wdata) ∨ (tr.addr = 0x008#12 ∧ s' = writeStatus s tr.wdata) ∨
          (tr.addr = 0x00C#12 ∧ s' = writeCommand s tr.wdata) ∨
          ∃ n j, tr.addr = laneOffset n j ∧ s.busy = false ∧
            s' = { s with w := setWord s.w n (setLane (s.word n) j tr.wdata) }))) := by
  unfold busAccess
  split
  next ha =>
    split
    next hw =>
      refine ⟨_, _, rfl, ?_⟩
      rcases memWrite_state s tr.addr tr.wdata with h | ⟨a, h⟩ | ⟨a, h⟩ | ⟨a, h⟩ | ⟨n, j, hr, ⟨hb, h⟩ | ⟨hb, h⟩⟩
      · exact Or.inl h
      · exact Or.inr (Or.inr ⟨ha, hw, Or.inl ⟨a, h⟩⟩)
      · exact Or.inr (Or.inr ⟨ha, hw, Or.inr (Or.inl ⟨a, h⟩)⟩)
      · exact Or.inr (Or.inr ⟨ha, hw, Or.inr (Or.inr (Or.inl ⟨a, h⟩))⟩)
      · exact Or.inr (Or.inl ⟨hb, h⟩)
      · have hal : tr.addr.toNat % 4 = 0 := by
          simp only [Transfer.accepted, Bool.and_eq_true, beq_iff_eq] at ha
          exact ha.1.1.2
        exact Or.inr (Or.inr ⟨ha, hw, Or.inr (Or.inr (Or.inr ⟨n, j, eq_laneOffset_of_regionOf hr hal, hb, h⟩))⟩)
    next hw =>
      refine ⟨_, _, rfl, ?_⟩
      rcases memRead_state s tr.addr with h | ⟨hb, h⟩
      · exact Or.inl h
      · exact Or.inr (Or.inl ⟨hb, h⟩)
  next ha => exact ⟨s, _, rfl, Or.inl rfl⟩

end Sys2Proof.Laws
end

