-- ==== Sys2Proof/Laws/Bytes.lean ====
section
/-! SUPPORT. The little-endian byte views: numbers and their bytes, both ways (R53 to R55). -/

namespace Sys2Proof.Laws

open Sys2Proof.Machine

theorem natOfBytes_lt (b : List Byte) : natOfBytes b < 256 ^ b.length := by
  induction b with
  | nil => simp [natOfBytes]
  | cons x b ih =>
    have := x.isLt
    simp only [natOfBytes, List.length_cons, pow_succ]
    omega

@[simp] theorem length_bytesOfNat (n v : Nat) : (bytesOfNat n v).length = n := by
  induction n generalizing v with
  | zero => rfl
  | succ n ih => simp [bytesOfNat, ih]

theorem natOfBytes_bytesOfNat (n v : Nat) (h : v < 256 ^ n) : natOfBytes (bytesOfNat n v) = v := by
  induction n generalizing v with
  | zero =>
    have : v = 0 := by simpa using h
    simp [this, bytesOfNat, natOfBytes]
  | succ n ih =>
    rw [bytesOfNat, natOfBytes, ih _ (by rw [pow_succ] at h; omega), BitVec.toNat_ofNat]
    omega

theorem bytesOfNat_natOfBytes (b : List Byte) : bytesOfNat b.length (natOfBytes b) = b := by
  induction b with
  | nil => rfl
  | cons x b ih =>
    have := x.isLt
    rw [List.length_cons, bytesOfNat, natOfBytes, show (x.toNat + 256 * natOfBytes b) / 256 = natOfBytes b by omega, ih]
    congr 1
    apply BitVec.eq_of_toNat_eq
    rw [BitVec.toNat_ofNat]
    omega

theorem getElem?_bytesOfNat (n v i : Nat) (h : i < n) :
    (bytesOfNat n v)[i]? = some (BitVec.ofNat 8 (v / 256 ^ i)) := by
  induction n generalizing v i with
  | zero => omega
  | succ n ih =>
    cases i with
    | zero => simp [bytesOfNat]
    | succ i =>
      simp only [bytesOfNat, List.getElem?_cons_succ]
      rw [ih _ _ (by omega), Nat.div_div_eq_div_mul, pow_succ']

theorem natOfBytes_append (a b : List Byte) :
    natOfBytes (a ++ b) = natOfBytes a + 256 ^ a.length * natOfBytes b := by
  induction a with
  | nil => simp [natOfBytes]
  | cons x a ih =>
    simp only [natOfBytes, List.cons_append, ih, List.length_cons, pow_succ]
    ring

end Sys2Proof.Laws
end

