-- ==== Sys2Proof/Laws/Edwards.lean ====
section
/-! SUPPORT. The twisted Edwards curve -x^2 + y^2 = 1 + d*x^2*y^2 over any field in which -1 is a square and d is not
(R11, R12, R160): the addition law of R162 is complete, closed on the curve and associative. The coefficients of the
polynomial identities were found by dividing by the curve equations. -/

namespace Sys2Proof.Laws.Edwards

variable {F : Type} [Field F]

/-- The curve equation (R160). -/
def OnCurve (d x y : F) : Prop := y ^ 2 - x ^ 2 = 1 + d * x ^ 2 * y ^ 2

/-- The x coordinate of a sum (R162). -/
def addX (d x1 y1 x2 y2 : F) : F := (x1 * y2 + y1 * x2) / (1 + d * x1 * x2 * y1 * y2)

/-- The y coordinate of a sum (R162). -/
def addY (d x1 y1 x2 y2 : F) : F := (y1 * y2 + x1 * x2) / (1 - d * x1 * x2 * y1 * y2)

/-- What the field must give: -1 is the square of `i`, `d` is no square, and 2 is not 0. -/
structure Complete (d i : F) : Prop where
  sq_i : i ^ 2 = -1
  nonsquare : ¬ IsSquare d
  two_ne : (2 : F) ≠ 0

variable {d i : F}

/-- For two curve points the product in the denominators is neither 1 nor -1 (completeness, R162). -/
theorem product_sq_ne_one (hc : Complete d i) {x1 y1 x2 y2 : F} (h1 : OnCurve d x1 y1) (h2 : OnCurve d x2 y2) :
    (d * x1 * x2 * y1 * y2) ^ 2 ≠ 1 := by
  intro he
  unfold OnCurve at h1 h2
  have hne : d * x1 * x2 * y1 * y2 ≠ 0 := by
    intro h0
    rw [h0] at he
    norm_num at he
  have hxy : x1 * y1 ≠ 0 := by
    intro h0
    apply hne
    linear_combination d * x2 * y2 * h0
  have hx2 : x2 ≠ 0 := by
    rintro rfl
    exact hne (by ring)
  have key : ∀ j : F, j ^ 2 = -1 →
      (j * x1 + d * x1 * x2 * y1 * y2 * y1) ^ 2 = d * (x1 * y1 * (y2 + j * x2)) ^ 2 := by
    intro j hj
    linear_combination (x1 ^ 2 - d * x1 ^ 2 * y1 ^ 2 * x2 ^ 2) * hj + (y1 ^ 2 - 1) * he + h1 -
      d * x1 ^ 2 * y1 ^ 2 * h2
  have zero : ∀ j : F, j ^ 2 = -1 → y2 + j * x2 = 0 := by
    intro j hj
    by_contra hz
    refine hc.nonsquare ⟨(j * x1 + d * x1 * x2 * y1 * y2 * y1) / (x1 * y1 * (y2 + j * x2)), ?_⟩
    have hb : x1 * y1 * (y2 + j * x2) ≠ 0 := mul_ne_zero hxy hz
    rw [div_mul_div_comm, eq_div_iff (mul_ne_zero hb hb)]
    linear_combination -(key j hj)
  have hp := zero i hc.sq_i
  have hm := zero (-i) (by linear_combination hc.sq_i)
  have hi0 : i ≠ 0 := by
    intro h0
    have := hc.sq_i
    rw [h0] at this
    norm_num at this
  have hix : 2 * (i * x2) = 0 := by linear_combination hp - hm
  rcases mul_eq_zero.1 hix with h | h
  · exact hc.two_ne h
  · exact (mul_ne_zero hi0 hx2) h

theorem one_add_ne_zero (hc : Complete d i) {x1 y1 x2 y2 : F} (h1 : OnCurve d x1 y1) (h2 : OnCurve d x2 y2) :
    1 + d * x1 * x2 * y1 * y2 ≠ 0 := by
  intro h
  apply product_sq_ne_one hc h1 h2
  linear_combination (d * x1 * x2 * y1 * y2 - 1) * h

theorem one_sub_ne_zero (hc : Complete d i) {x1 y1 x2 y2 : F} (h1 : OnCurve d x1 y1) (h2 : OnCurve d x2 y2) :
    1 - d * x1 * x2 * y1 * y2 ≠ 0 := by
  intro h
  apply product_sq_ne_one hc h1 h2
  linear_combination -(d * x1 * x2 * y1 * y2 + 1) * h

/-- The sum of two curve points is a curve point. -/
theorem add_onCurve (hc : Complete d i) {x1 y1 x2 y2 : F} (h1 : OnCurve d x1 y1) (h2 : OnCurve d x2 y2) :
    OnCurve d (addX d x1 y1 x2 y2) (addY d x1 y1 x2 y2) := by
  have hD1 := one_add_ne_zero hc h1 h2
  have hD2 := one_sub_ne_zero hc h1 h2
  unfold OnCurve at h1 h2 ⊢
  unfold addX addY
  rw [div_pow, div_pow, div_sub_div _ _ (pow_ne_zero 2 hD2) (pow_ne_zero 2 hD1)]
  have hrhs : ∀ a b D1 D2 : F, D1 ≠ 0 → D2 ≠ 0 →
      1 + d * (a / D1) * (b / D2) = (D2 * D1 + d * a * b) / (D2 * D1) := by
    intro a b D1 D2 hD1 hD2
    field_simp
  rw [hrhs _ _ _ _ (pow_ne_zero 2 hD1) (pow_ne_zero 2 hD2)]
  congr 1
  linear_combination
    (
      y2^4 - 4*x2^2*y2^2 - 2*x2^2*y2^2*d + 2*x2^2*y2^4 + x2^4 - 2*x2^4*y2^2 - 2*x2^4*y2^4*d - x2^4*y2^4*d^2 -
      y1^2*x2^2*y2^4*d + y1^2*x2^4*y2^2*d + y1^2*x2^4*y2^4*d^2 + x1^2*x2^2*y2^4*d - x1^2*x2^4*y2^2*d -
      x1^2*x2^4*y2^4*d^2 + x1^2*y1^2*x2^4*y2^4*d^3
    ) * h1 +
    (
      1 + y2^2 - x2^2 + 2*x2^2*y2^2 + x2^2*y2^2*d - y1^2*y2^2 + y1^2*x2^2 - 2*y1^2*x2^2*y2^2 -
      2*y1^2*x2^2*y2^2*d + y1^4*x2^2*y2^2*d + x1^2*y2^2 - x1^2*x2^2 + 2*x1^2*x2^2*y2^2 + 2*x1^2*x2^2*y2^2*d +
      x1^4*x2^2*y2^2*d
    ) * h2

/-- A quotient is unchanged when both sides are multiplied by the same nonzero factor. -/
theorem div_eq_of_mul {a b e f : F} (D : F) (hD : D ≠ 0) (hn : D * a = e) (hd : D * b = f) : a / b = e / f := by
  rw [← hn, ← hd, mul_div_mul_left _ _ hD]

/-- The x coordinate of (P1 + P2) + P3 with its denominators cleared. -/
theorem addX_add {x1 y1 x2 y2 : F} (x3 y3 : F) (hD1 : 1 + d * x1 * x2 * y1 * y2 ≠ 0)
    (hD2 : 1 - d * x1 * x2 * y1 * y2 ≠ 0) :
    addX d (addX d x1 y1 x2 y2) (addY d x1 y1 x2 y2) x3 y3 =
      ((x1 * y2 + y1 * x2) * (1 - d * x1 * x2 * y1 * y2) * y3 + (y1 * y2 + x1 * x2) * (1 + d * x1 * x2 * y1 * y2) * x3) /
        ((1 + d * x1 * x2 * y1 * y2) * (1 - d * x1 * x2 * y1 * y2) +
          d * (x1 * y2 + y1 * x2) * (y1 * y2 + x1 * x2) * x3 * y3) := by
  have e1 := div_mul_cancel₀ (x1 * y2 + y1 * x2) hD1
  have e2 := div_mul_cancel₀ (y1 * y2 + x1 * x2) hD2
  rw [addX]
  apply div_eq_of_mul ((1 + d * x1 * x2 * y1 * y2) * (1 - d * x1 * x2 * y1 * y2)) (mul_ne_zero hD1 hD2)
  · rw [addX, addY]
    linear_combination (1 - d * x1 * x2 * y1 * y2) * y3 * e1 + (1 + d * x1 * x2 * y1 * y2) * x3 * e2
  · rw [addX, addY]
    linear_combination d * x3 * y3 * ((y1 * y2 + x1 * x2) / (1 - d * x1 * x2 * y1 * y2)) *
      (1 - d * x1 * x2 * y1 * y2) * e1 + d * x3 * y3 * (x1 * y2 + y1 * x2) * e2

/-- The y coordinate of (P1 + P2) + P3 with its denominators cleared. -/
theorem addY_add {x1 y1 x2 y2 : F} (x3 y3 : F) (hD1 : 1 + d * x1 * x2 * y1 * y2 ≠ 0)
    (hD2 : 1 - d * x1 * x2 * y1 * y2 ≠ 0) :
    addY d (addX d x1 y1 x2 y2) (addY d x1 y1 x2 y2) x3 y3 =
      ((y1 * y2 + x1 * x2) * (1 + d * x1 * x2 * y1 * y2) * y3 + (x1 * y2 + y1 * x2) * (1 - d * x1 * x2 * y1 * y2) * x3) /
        ((1 + d * x1 * x2 * y1 * y2) * (1 - d * x1 * x2 * y1 * y2) -
          d * (x1 * y2 + y1 * x2) * (y1 * y2 + x1 * x2) * x3 * y3) := by
  have e1 := div_mul_cancel₀ (x1 * y2 + y1 * x2) hD1
  have e2 := div_mul_cancel₀ (y1 * y2 + x1 * x2) hD2
  rw [addY]
  apply div_eq_of_mul ((1 + d * x1 * x2 * y1 * y2) * (1 - d * x1 * x2 * y1 * y2)) (mul_ne_zero hD1 hD2)
  · rw [addX, addY]
    linear_combination (1 - d * x1 * x2 * y1 * y2) * x3 * e1 + (1 + d * x1 * x2 * y1 * y2) * y3 * e2
  · rw [addX, addY]
    linear_combination -(d * x3 * y3 * ((y1 * y2 + x1 * x2) / (1 - d * x1 * x2 * y1 * y2)) *
      (1 - d * x1 * x2 * y1 * y2) * e1) - d * x3 * y3 * (x1 * y2 + y1 * x2) * e2

theorem addX_comm (x1 y1 x2 y2 : F) : addX d x1 y1 x2 y2 = addX d x2 y2 x1 y1 := by
  unfold addX
  congr 1 <;> ring

theorem addY_comm (x1 y1 x2 y2 : F) : addY d x1 y1 x2 y2 = addY d x2 y2 x1 y1 := by
  unfold addY
  congr 1 <;> ring

/-- The cleared denominators are not 0. -/
theorem cleared_ne_zero (hc : Complete d i) {x1 y1 x2 y2 x3 y3 : F} (h1 : OnCurve d x1 y1) (h2 : OnCurve d x2 y2)
    (h3 : OnCurve d x3 y3) :
    (1 + d * x1 * x2 * y1 * y2) * (1 - d * x1 * x2 * y1 * y2) +
        d * (x1 * y2 + y1 * x2) * (y1 * y2 + x1 * x2) * x3 * y3 ≠ 0 ∧
      (1 + d * x1 * x2 * y1 * y2) * (1 - d * x1 * x2 * y1 * y2) -
        d * (x1 * y2 + y1 * x2) * (y1 * y2 + x1 * x2) * x3 * y3 ≠ 0 := by
  have hD1 := one_add_ne_zero hc h1 h2
  have hD2 := one_sub_ne_zero hc h1 h2
  have h12 := add_onCurve hc h1 h2
  have e1 := div_mul_cancel₀ (x1 * y2 + y1 * x2) hD1
  have e2 := div_mul_cancel₀ (y1 * y2 + x1 * x2) hD2
  have hprod : d * addX d x1 y1 x2 y2 * x3 * addY d x1 y1 x2 y2 * y3 *
      ((1 + d * x1 * x2 * y1 * y2) * (1 - d * x1 * x2 * y1 * y2)) =
        d * (x1 * y2 + y1 * x2) * (y1 * y2 + x1 * x2) * x3 * y3 := by
    rw [addX, addY]
    linear_combination d * x3 * y3 * ((y1 * y2 + x1 * x2) / (1 - d * x1 * x2 * y1 * y2)) *
      (1 - d * x1 * x2 * y1 * y2) * e1 + d * x3 * y3 * (x1 * y2 + y1 * x2) * e2
  constructor
  · have := mul_ne_zero (mul_ne_zero hD1 hD2) (one_add_ne_zero hc h12 h3)
    intro h
    apply this
    linear_combination h + hprod
  · have := mul_ne_zero (mul_ne_zero hD1 hD2) (one_sub_ne_zero hc h12 h3)
    intro h
    apply this
    linear_combination h - hprod

/-- Associativity, x coordinate. -/
theorem addX_assoc (hc : Complete d i) {x1 y1 x2 y2 x3 y3 : F} (h1 : OnCurve d x1 y1) (h2 : OnCurve d x2 y2)
    (h3 : OnCurve d x3 y3) :
    addX d (addX d x1 y1 x2 y2) (addY d x1 y1 x2 y2) x3 y3 =
      addX d x1 y1 (addX d x2 y2 x3 y3) (addY d x2 y2 x3 y3) := by
  rw [addX_comm x1 y1 (addX d x2 y2 x3 y3), addX_add x3 y3 (one_add_ne_zero hc h1 h2) (one_sub_ne_zero hc h1 h2),
    addX_add x1 y1 (one_add_ne_zero hc h2 h3) (one_sub_ne_zero hc h2 h3),
    div_eq_div_iff (cleared_ne_zero hc h1 h2 h3).1 (cleared_ne_zero hc h2 h3 h1).1]
  unfold OnCurve at h1 h2 h3
  linear_combination
    (
      - y1*x2*y2^4*x3^2*y3*d - y1*x2^2*y2^3*x3*d - y1*x2^2*y2^3*x3^3*d - y1*x2^3*y2^2*y3*d + y1*x2^3*y2^2*y3^3*d
      + y1*x2^3*y2^4*x3^2*y3*d^2 + y1*x2^4*y2*x3*y3^2*d + y1*x2^4*y2^3*x3*y3^2*d^2 + x1*x2*y2^4*x3*y3^2*d -
      x1*x2^2*y2^3*y3*d + x1*x2^2*y2^3*y3^3*d - x1*x2^3*y2^2*x3*d - x1*x2^3*y2^2*x3^3*d -
      x1*x2^3*y2^4*x3*y3^2*d^2 - x1*x2^4*y2*x3^2*y3*d - x1*x2^4*y2^3*x3^2*y3*d^2
    ) * h1 +
    (
      y1*y2*x3 - y1*y2*x3*y3^2 + y1*y2*x3^3 + y1*y2*x3^3*y3^2*d + y1*x2*y3 - y1*x2*y3^3 + y1*x2*x3^2*y3 +
      y1*x2*x3^2*y3^3*d - y1*x2*y2^2*x3^2*y3*d - y1*x2^2*y2*x3*y3^2*d - y1^3*y2*x3 + y1^3*y2*x3*y3^2 -
      y1^3*y2*x3^3 - y1^3*y2*x3^3*y3^2*d - y1^3*x2*y3 + y1^3*x2*y3^3 - y1^3*x2*x3^2*y3 - y1^3*x2*x3^2*y3^3*d +
      y1^3*x2*y2^2*x3^2*y3*d + y1^3*x2^2*y2*x3*y3^2*d + x1*y2*y3 - x1*y2*y3^3 + x1*y2*x3^2*y3 +
      x1*y2*x3^2*y3^3*d + x1*x2*x3 - x1*x2*x3*y3^2 + x1*x2*x3^3 + x1*x2*x3^3*y3^2*d + x1*x2*y2^2*x3*y3^2*d +
      x1*x2^2*y2*x3^2*y3*d - x1*y1^2*y2*y3 + x1*y1^2*y2*y3^3 - x1*y1^2*y2*x3^2*y3 - x1*y1^2*y2*x3^2*y3^3*d -
      x1*y1^2*x2*x3 + x1*y1^2*x2*x3*y3^2 - x1*y1^2*x2*x3^3 - x1*y1^2*x2*x3^3*y3^2*d - x1*y1^2*x2*y2^2*x3*y3^2*d
      + x1*y1^2*x2*y2^2*x3^3*y3^2*d^2 - x1*y1^2*x2^2*y2*x3^2*y3*d - x1*y1^2*x2^2*y2*x3^2*y3^3*d^2 +
      x1^2*y1*y2*x3 - x1^2*y1*y2*x3*y3^2 + x1^2*y1*y2*x3^3 + x1^2*y1*y2*x3^3*y3^2*d + x1^2*y1*x2*y3 -
      x1^2*y1*x2*y3^3 + x1^2*y1*x2*x3^2*y3 + x1^2*y1*x2*x3^2*y3^3*d - x1^2*y1*x2*y2^2*x3^2*y3*d -
      x1^2*y1*x2*y2^2*x3^2*y3^3*d^2 - x1^2*y1*x2^2*y2*x3*y3^2*d + x1^2*y1*x2^2*y2*x3^3*y3^2*d^2 + x1^3*y2*y3 -
      x1^3*y2*y3^3 + x1^3*y2*x3^2*y3 + x1^3*y2*x3^2*y3^3*d + x1^3*x2*x3 - x1^3*x2*x3*y3^2 + x1^3*x2*x3^3 +
      x1^3*x2*x3^3*y3^2*d + x1^3*x2*y2^2*x3*y3^2*d + x1^3*x2^2*y2*x3^2*y3*d
    ) * h2 +
    (
      - y1*y2*x3 + y1*y2^3*x3 - y1*x2*y3 + y1*x2*y2^2*y3 - y1*x2^2*y2*x3 - y1*x2^3*y3 + y1^3*y2*x3 -
      y1^3*y2^3*x3 + y1^3*x2*y3 - y1^3*x2*y2^2*y3 + y1^3*x2^2*y2*x3 + y1^3*x2^3*y3 - x1*y2*y3 + x1*y2^3*y3 -
      x1*x2*x3 + x1*x2*y2^2*x3 - x1*x2^2*y2*y3 - x1*x2^3*x3 + x1*y1^2*y2*y3 - x1*y1^2*y2^3*y3 + x1*y1^2*x2*x3 -
      x1*y1^2*x2*y2^2*x3 - x1*y1^2*x2*y2^2*x3*d + x1*y1^2*x2^2*y2*y3 + x1*y1^2*x2^2*y2*y3*d + x1*y1^2*x2^3*x3 -
      x1^2*y1*y2*x3 + x1^2*y1*y2^3*x3 - x1^2*y1*x2*y3 + x1^2*y1*x2*y2^2*y3 + x1^2*y1*x2*y2^2*y3*d -
      x1^2*y1*x2^2*y2*x3 - x1^2*y1*x2^2*y2*x3*d - x1^2*y1*x2^3*y3 - x1^3*y2*y3 + x1^3*y2^3*y3 - x1^3*x2*x3 +
      x1^3*x2*y2^2*x3 - x1^3*x2^2*y2*y3 - x1^3*x2^3*x3
    ) * h3

/-- Associativity, y coordinate. -/
theorem addY_assoc (hc : Complete d i) {x1 y1 x2 y2 x3 y3 : F} (h1 : OnCurve d x1 y1) (h2 : OnCurve d x2 y2)
    (h3 : OnCurve d x3 y3) :
    addY d (addX d x1 y1 x2 y2) (addY d x1 y1 x2 y2) x3 y3 =
      addY d x1 y1 (addX d x2 y2 x3 y3) (addY d x2 y2 x3 y3) := by
  rw [addY_comm x1 y1 (addX d x2 y2 x3 y3), addY_add x3 y3 (one_add_ne_zero hc h1 h2) (one_sub_ne_zero hc h1 h2),
    addY_add x1 y1 (one_add_ne_zero hc h2 h3) (one_sub_ne_zero hc h2 h3),
    div_eq_div_iff (cleared_ne_zero hc h1 h2 h3).2 (cleared_ne_zero hc h2 h3 h1).2]
  unfold OnCurve at h1 h2 h3
  linear_combination
    (
      y1*x2*y2^4*x3*y3^2*d - y1*x2^2*y2^3*y3*d + y1*x2^2*y2^3*y3^3*d - y1*x2^3*y2^2*x3*d - y1*x2^3*y2^2*x3^3*d -
      y1*x2^3*y2^4*x3*y3^2*d^2 - y1*x2^4*y2*x3^2*y3*d - y1*x2^4*y2^3*x3^2*y3*d^2 - x1*x2*y2^4*x3^2*y3*d -
      x1*x2^2*y2^3*x3*d - x1*x2^2*y2^3*x3^3*d - x1*x2^3*y2^2*y3*d + x1*x2^3*y2^2*y3^3*d +
      x1*x2^3*y2^4*x3^2*y3*d^2 + x1*x2^4*y2*x3*y3^2*d + x1*x2^4*y2^3*x3*y3^2*d^2
    ) * h1 +
    (
      y1*y2*y3 - y1*y2*y3^3 + y1*y2*x3^2*y3 + y1*y2*x3^2*y3^3*d + y1*x2*x3 - y1*x2*x3*y3^2 + y1*x2*x3^3 +
      y1*x2*x3^3*y3^2*d + y1*x2*y2^2*x3*y3^2*d + y1*x2^2*y2*x3^2*y3*d - y1^3*y2*y3 + y1^3*y2*y3^3 -
      y1^3*y2*x3^2*y3 - y1^3*y2*x3^2*y3^3*d - y1^3*x2*x3 + y1^3*x2*x3*y3^2 - y1^3*x2*x3^3 - y1^3*x2*x3^3*y3^2*d
      - y1^3*x2*y2^2*x3*y3^2*d - y1^3*x2^2*y2*x3^2*y3*d + x1*y2*x3 - x1*y2*x3*y3^2 + x1*y2*x3^3 +
      x1*y2*x3^3*y3^2*d + x1*x2*y3 - x1*x2*y3^3 + x1*x2*x3^2*y3 + x1*x2*x3^2*y3^3*d - x1*x2*y2^2*x3^2*y3*d -
      x1*x2^2*y2*x3*y3^2*d - x1*y1^2*y2*x3 + x1*y1^2*y2*x3*y3^2 - x1*y1^2*y2*x3^3 - x1*y1^2*y2*x3^3*y3^2*d -
      x1*y1^2*x2*y3 + x1*y1^2*x2*y3^3 - x1*y1^2*x2*x3^2*y3 - x1*y1^2*x2*x3^2*y3^3*d + x1*y1^2*x2*y2^2*x3^2*y3*d
      + x1*y1^2*x2*y2^2*x3^2*y3^3*d^2 + x1*y1^2*x2^2*y2*x3*y3^2*d - x1*y1^2*x2^2*y2*x3^3*y3^2*d^2 +
      x1^2*y1*y2*y3 - x1^2*y1*y2*y3^3 + x1^2*y1*y2*x3^2*y3 + x1^2*y1*y2*x3^2*y3^3*d + x1^2*y1*x2*x3 -
      x1^2*y1*x2*x3*y3^2 + x1^2*y1*x2*x3^3 + x1^2*y1*x2*x3^3*y3^2*d + x1^2*y1*x2*y2^2*x3*y3^2*d -
      x1^2*y1*x2*y2^2*x3^3*y3^2*d^2 + x1^2*y1*x2^2*y2*x3^2*y3*d + x1^2*y1*x2^2*y2*x3^2*y3^3*d^2 + x1^3*y2*x3 -
      x1^3*y2*x3*y3^2 + x1^3*y2*x3^3 + x1^3*y2*x3^3*y3^2*d + x1^3*x2*y3 - x1^3*x2*y3^3 + x1^3*x2*x3^2*y3 +
      x1^3*x2*x3^2*y3^3*d - x1^3*x2*y2^2*x3^2*y3*d - x1^3*x2^2*y2*x3*y3^2*d
    ) * h2 +
    (
      - y1*y2*y3 + y1*y2^3*y3 - y1*x2*x3 + y1*x2*y2^2*x3 - y1*x2^2*y2*y3 - y1*x2^3*x3 + y1^3*y2*y3 -
      y1^3*y2^3*y3 + y1^3*x2*x3 - y1^3*x2*y2^2*x3 + y1^3*x2^2*y2*y3 + y1^3*x2^3*x3 - x1*y2*x3 + x1*y2^3*x3 -
      x1*x2*y3 + x1*x2*y2^2*y3 - x1*x2^2*y2*x3 - x1*x2^3*y3 + x1*y1^2*y2*x3 - x1*y1^2*y2^3*x3 + x1*y1^2*x2*y3 -
      x1*y1^2*x2*y2^2*y3 - x1*y1^2*x2*y2^2*y3*d + x1*y1^2*x2^2*y2*x3 + x1*y1^2*x2^2*y2*x3*d + x1*y1^2*x2^3*y3 -
      x1^2*y1*y2*y3 + x1^2*y1*y2^3*y3 - x1^2*y1*x2*x3 + x1^2*y1*x2*y2^2*x3 + x1^2*y1*x2*y2^2*x3*d -
      x1^2*y1*x2^2*y2*y3 - x1^2*y1*x2^2*y2*y3*d - x1^2*y1*x2^3*x3 - x1^3*y2*x3 + x1^3*y2^3*x3 - x1^3*x2*y3 +
      x1^3*x2*y2^2*y3 - x1^3*x2^2*y2*x3 - x1^3*x2^3*y3
    ) * h3

end Sys2Proof.Laws.Edwards
end

