-- ==== Sys2Proof/Laws/Primality.lean ====
section
/-! SUPPORT. The field prime p = 2^255 - 19 (R9) is a prime number: a Lucas certificate, checked by exponentiation. -/

namespace Sys2Proof.Laws

open Sys2Proof.Machine

/-- x^e mod m over the lowest `n` bits of `e`. -/
def powMod (m : Nat) : Nat → Nat → Nat → Nat
  | 0, _, _ => 1 % m
  | n + 1, x, e =>
    let h := powMod m n x (e / 2)
    if e % 2 = 1 then h * h % m * x % m else h * h % m

theorem powMod_lt (m : Nat) (hm : 0 < m) (n x e : Nat) : powMod m n x e < m := by
  cases n with
  | zero => exact Nat.mod_lt _ hm
  | succ n => simp only [powMod]; split <;> exact Nat.mod_lt _ hm

theorem powMod_cast (m n x e : Nat) (he : e < 2 ^ n) : (powMod m n x e : ZMod m) = (x : ZMod m) ^ e := by
  induction n generalizing e with
  | zero =>
    have : e = 0 := by simpa using he
    subst this; simp [powMod]
  | succ n ih =>
    have h2 := ih (e / 2) (by rw [pow_succ] at he; omega)
    simp only [powMod]
    split
    · next ho =>
      have : e = e / 2 + e / 2 + 1 := by omega
      conv_rhs => rw [this]
      simp [h2, pow_add]
    · next ho =>
      have : e = e / 2 + e / 2 := by omega
      conv_rhs => rw [this]
      simp [h2, pow_add]

/-- A Lucas certificate: the primes of n - 1 and a number of order n - 1. -/
theorem prime_of_certificate (n g : Nat) (fs : List Nat) (hn : 1 < n) (hlt : n < 2 ^ 256)
    (hfs : ∀ f ∈ fs, f.Prime) (hprod : fs.prod = n - 1) (h1 : powMod n 256 g (n - 1) = 1)
    (h2 : ∀ f ∈ fs, powMod n 256 g ((n - 1) / f) ≠ 1) : n.Prime := by
  have hone : ((1 : Nat) : ZMod n) = 1 := by simp
  refine lucas_primality n (g : ZMod n) ?_ ?_
  · rw [← powMod_cast n 256 g (n - 1) (by omega), h1, hone]
  · intro q hq hdvd
    rw [← hprod, Prime.dvd_prod_iff hq.prime] at hdvd
    obtain ⟨f, hf, hqf⟩ := hdvd
    obtain rfl : q = f := (Nat.prime_dvd_prime_iff_eq hq (hfs f hf)).1 hqf
    have hle : (n - 1) / q ≤ n - 1 := Nat.div_le_self _ _
    rw [← powMod_cast n 256 g ((n - 1) / q) (by omega), ← hone]
    intro h
    apply h2 q hf
    have := (ZMod.natCast_eq_natCast_iff' _ _ n).1 h
    rwa [Nat.mod_eq_of_lt (powMod_lt n (by omega) _ _ _), Nat.mod_eq_of_lt hn] at this

theorem prime_430751 : Nat.Prime 430751 := by norm_num
theorem prime_132049 : Nat.Prime 132049 := by norm_num
theorem prime_569003 : Nat.Prime 569003 := by norm_num
theorem prime_1923133 : Nat.Prime 1923133 := by norm_num
theorem prime_8574133 : Nat.Prime 8574133 := by norm_num

theorem prime_2773320623 : Nat.Prime 2773320623 :=
  prime_of_certificate _ 5 [2, 2437, 569003] (by decide) (by decide)
    (by simp only [List.forall_mem_cons]; exact ⟨by norm_num, by norm_num, prime_569003, by simp⟩)
    (by decide) (by decide +kernel) (by decide +kernel)

theorem prime_72106336199 : Nat.Prime 72106336199 :=
  prime_of_certificate _ 7 [2, 13, 2773320623] (by decide) (by decide)
    (by simp only [List.forall_mem_cons]; exact ⟨by norm_num, by norm_num, prime_2773320623, by simp⟩)
    (by decide) (by decide +kernel) (by decide +kernel)

theorem prime_1919519569386763 : Nat.Prime 1919519569386763 :=
  prime_of_certificate _ 2 [2, 3, 7, 19, 47, 47, 127, 8574133] (by decide) (by decide)
    (by
      simp only [List.forall_mem_cons]
      exact ⟨by norm_num, by norm_num, by norm_num, by norm_num, by norm_num, by norm_num, by norm_num,
        prime_8574133, by simp⟩)
    (by decide) (by decide +kernel) (by decide +kernel)

theorem prime_31757755568855353 : Nat.Prime 31757755568855353 :=
  prime_of_certificate _ 10 [2, 2, 2, 3, 31, 107, 223, 4153, 430751] (by decide) (by decide)
    (by
      simp only [List.forall_mem_cons]
      exact ⟨by norm_num, by norm_num, by norm_num, by norm_num, by norm_num, by norm_num, by norm_num, by norm_num,
        prime_430751, by simp⟩)
    (by decide) (by decide +kernel) (by decide +kernel)

theorem prime_75445702479781427272750846543864801 : Nat.Prime 75445702479781427272750846543864801 :=
  prime_of_certificate _ 7 [2, 2, 2, 2, 2, 3, 3, 5, 5, 75707, 72106336199, 1919519569386763] (by decide) (by decide)
    (by
      simp only [List.forall_mem_cons]
      exact ⟨by norm_num, by norm_num, by norm_num, by norm_num, by norm_num, by norm_num, by norm_num, by norm_num,
        by norm_num, by norm_num, prime_72106336199, prime_1919519569386763, by simp⟩)
    (by decide) (by decide +kernel) (by decide +kernel)

theorem prime_of_p_cofactor :
    Nat.Prime 74058212732561358302231226437062788676166966415465897661863160754340907 :=
  prime_of_certificate _ 2
    [2, 3, 353, 57467, 132049, 1923133, 31757755568855353, 75445702479781427272750846543864801]
    (by decide) (by decide)
    (by
      simp only [List.forall_mem_cons]
      exact ⟨by norm_num, by norm_num, by norm_num, by norm_num, prime_132049, prime_1923133,
        prime_31757755568855353, prime_75445702479781427272750846543864801, by simp⟩)
    (by decide) (by decide +kernel) (by decide +kernel)

theorem p_prime : Nat.Prime p :=
  prime_of_certificate _ 2
    [2, 2, 3, 65147, 74058212732561358302231226437062788676166966415465897661863160754340907]
    (by decide) (by decide)
    (by
      simp only [List.forall_mem_cons]
      exact ⟨by norm_num, by norm_num, by norm_num, by norm_num, prime_of_p_cofactor, by simp⟩)
    (by decide +kernel) (by decide +kernel) (by decide +kernel)

end Sys2Proof.Laws
end

