-- ==== Sys2Proof/Laws/FieldArith.lean ====
section
/-! SUPPORT. The arithmetic on natural numbers is that of the field ZMod p: every operation is canonical, and its cast is
the field's operation (R8, R120, R128). -/

namespace Sys2Proof.Laws

open Sys2Proof.Machine

theorem p_pos : 0 < p := by decide
theorem one_lt_p : 1 < p := by decide
theorem p_lt_two_pow_255 : p < 2 ^ 255 := by decide

theorem fadd_lt (a b : Nat) : fadd a b < p := Nat.mod_lt _ p_pos
theorem fsub_lt (a b : Nat) : fsub a b < p := Nat.mod_lt _ p_pos
theorem fmul_lt (a b : Nat) : fmul a b < p := Nat.mod_lt _ p_pos
theorem fdiv_lt (a b : Nat) : fdiv a b < p := fmul_lt _ _

theorem fpowBits_lt (n x e : Nat) : fpowBits n x e < p := by
  cases n with
  | zero => exact one_lt_p
  | succ n => simp only [fpowBits]; split <;> exact fmul_lt _ _

theorem fpow_lt (a e : Nat) : fpow a e < p := fpowBits_lt _ _ _
theorem finv_lt (a : Nat) : finv a < p := fpow_lt _ _

@[simp] theorem cast_fadd (a b : Nat) : (fadd a b : ZMod p) = a + b := by simp [fadd]

@[simp] theorem cast_fmul (a b : Nat) : (fmul a b : ZMod p) = a * b := by simp [fmul]

@[simp] theorem cast_fsub (a b : Nat) : (fsub a b : ZMod p) = a - b := by
  have h : b % p ≤ p := (Nat.mod_lt _ p_pos).le
  simp [fsub, Nat.cast_sub h, sub_eq_add_neg]

theorem cast_fpowBits (n x e : Nat) (he : e < 2 ^ n) : (fpowBits n x e : ZMod p) = (x : ZMod p) ^ e := by
  induction n generalizing e with
  | zero =>
    have : e = 0 := by simpa using he
    subst this; simp [fpowBits]
  | succ n ih =>
    have h2 := ih (e / 2) (by rw [pow_succ] at he; omega)
    simp only [fpowBits]
    split
    · have : e = e / 2 + e / 2 + 1 := by omega
      conv_rhs => rw [this]
      simp [h2, pow_add]
    · have : e = e / 2 + e / 2 := by omega
      conv_rhs => rw [this]
      simp [h2, pow_add]

theorem cast_fpow (a e : Nat) (he : e < 2 ^ 256) : (fpow a e : ZMod p) = (a : ZMod p) ^ e := by
  rw [fpow, cast_fpowBits _ _ _ he, ZMod.natCast_mod]

/-- Canonical numbers with the same cast are equal. -/
theorem eq_of_cast {a b : Nat} (ha : a < p) (hb : b < p) (h : (a : ZMod p) = b) : a = b := by
  have := (ZMod.natCast_eq_natCast_iff' a b p).1 h
  rwa [Nat.mod_eq_of_lt ha, Nat.mod_eq_of_lt hb] at this

theorem cast_eq_iff {a b : Nat} (ha : a < p) (hb : b < p) : (a : ZMod p) = b ↔ a = b :=
  ⟨eq_of_cast ha hb, fun h => by rw [h]⟩

theorem cast_eq_zero (a : Nat) : (a : ZMod p) = 0 ↔ a % p = 0 := by
  rw [ZMod.natCast_eq_zero_iff, Nat.dvd_iff_mod_eq_zero]

/-- FE_POW's function is the integer power reduced once (R126). -/
theorem fpow_eq (a e : Nat) (he : e < 2 ^ 256) : fpow a e = a ^ e % p := by
  apply eq_of_cast (fpow_lt _ _) (Nat.mod_lt _ p_pos)
  rw [cast_fpow a e he, ZMod.natCast_mod, Nat.cast_pow]

theorem finv_eq (a : Nat) : finv a = a ^ (p - 2) % p := fpow_eq a (p - 2) (by decide)

/-- FE_SUB's function is the integer difference reduced once (R7, R122). -/
theorem fsub_eq_int (a b : Nat) : ((fsub a b : Nat) : Int) = ((a : Int) - b) % p := by
  have h : b % p ≤ p := (Nat.mod_lt _ p_pos).le
  rw [fsub, Int.natCast_emod, Nat.cast_add, Nat.cast_sub h, Int.natCast_emod,
    show (a : Int) + (p - b % p) = (a - b % p) + p by ring, Int.add_emod_right, Int.sub_emod, Int.emod_emod,
    ← Int.sub_emod]

section

variable [Fact p.Prime]

@[simp] theorem cast_finv (a : Nat) : (finv a : ZMod p) = (a : ZMod p)⁻¹ := by
  rw [finv, cast_fpow _ _ (by decide)]
  by_cases h : (a : ZMod p) = 0
  · rw [h, inv_zero, zero_pow (by decide)]
  · apply eq_inv_of_mul_eq_one_left
    rw [← pow_succ]
    exact ZMod.pow_card_sub_one_eq_one h

@[simp] theorem cast_fdiv (a b : Nat) : (fdiv a b : ZMod p) = (a : ZMod p) / b := by
  rw [fdiv, cast_fmul, cast_finv, div_eq_mul_inv]

end

/-- a * a^(p-2) = 1 for a ≢ 0 (R125, R128). -/
theorem fmul_finv (a : Nat) (h : a % p ≠ 0) : fmul a (finv a) = 1 := by
  have : Fact p.Prime := ⟨p_prime⟩
  apply eq_of_cast (fmul_lt _ _) one_lt_p
  rw [cast_fmul, cast_finv, Nat.cast_one]
  exact mul_inv_cancel₀ fun h0 => h ((cast_eq_zero a).1 h0)

/-- inv_p(0) = 0 (R8). -/
theorem finv_of_zero (a : Nat) (h : a % p = 0) : finv a = 0 := by
  have : Fact p.Prime := ⟨p_prime⟩
  apply eq_of_cast (finv_lt _) p_pos
  rw [cast_finv, (cast_eq_zero a).2 h, inv_zero, Nat.cast_zero]

/-- d is no square mod p (R11, Euler's criterion) and SQRTM1 is a square root of -1 (R12). -/
theorem curve_complete [Fact p.Prime] : Edwards.Complete (curveD : ZMod p) (sqrtM1 : ZMod p) where
  sq_i := by
    have h : fmul sqrtM1 sqrtM1 = fsub 0 1 := by decide +kernel
    have := congrArg (Nat.cast : Nat → ZMod p) h
    simpa [pow_two] using this
  nonsquare := by
    rintro ⟨t, ht⟩
    have h : fpow curveD ((p - 1) / 2) = fsub 0 1 := by decide +kernel
    have h1 := congrArg (Nat.cast : Nat → ZMod p) h
    rw [cast_fpow _ _ (by decide), ht, ← pow_two, ← pow_mul, show 2 * ((p - 1) / 2) = p - 1 by decide] at h1
    have ht0 : t ≠ 0 := by
      rintro rfl
      rw [mul_zero, cast_eq_zero] at ht
      exact absurd ht (by decide)
    rw [ZMod.pow_card_sub_one_eq_one ht0] at h1
    have h2 : ((1 : Nat) : ZMod p) = ((p - 1 : Nat) : ZMod p) := by
      rw [Nat.cast_one, h1]
      exact congrArg _ (by decide)
    exact absurd (eq_of_cast one_lt_p (by decide) h2) (by decide)
  two_ne := by
    intro h
    have : ((2 : Nat) : ZMod p) = ((0 : Nat) : ZMod p) := by simpa using h
    exact absurd (eq_of_cast (by decide) p_pos this) (by decide)

/-- A root that `fsqrt` answers is canonical and its square is the number (R165). -/
theorem fsqrt_some {a r : Nat} (h : fsqrt a = some r) : r < p ∧ fmul r r = a % p := by
  dsimp only [fsqrt] at h
  split_ifs at h with h1 h2
  · obtain rfl := Option.some.inj h
    exact ⟨fpow_lt _ _, h1⟩
  · obtain rfl := Option.some.inj h
    exact ⟨fmul_lt _ _, h2⟩

/-- Where `fsqrt` answers none there is no root (R165). -/
theorem fsqrt_none [Fact p.Prime] {a : Nat} (h : fsqrt a = none) : ¬ IsSquare (a : ZMod p) := by
  rintro ⟨t, ht⟩
  have hroot : ∀ r : Nat, fmul r r ≠ a % p → (r : ZMod p) * r ≠ t * t := by
    intro r hr hc
    apply hr
    apply eq_of_cast (fmul_lt _ _) (Nat.mod_lt _ p_pos)
    rw [cast_fmul, ZMod.natCast_mod, hc, ht]
  have hcand : (fpow a ((p + 3) / 8) : ZMod p) = t ^ ((p + 3) / 4) := by
    rw [cast_fpow _ _ (by decide), ht, ← pow_two, ← pow_mul]
    congr 1
  have hsq : (fpow a ((p + 3) / 8) : ZMod p) * fpow a ((p + 3) / 8) = t * t * t ^ ((p - 1) / 2) := by
    rw [hcand, ← pow_add, ← pow_two, ← pow_add]
    congr 1
  dsimp only [fsqrt] at h
  split_ifs at h with h1 h2
  have n1 := hroot _ h1
  have n2 := hroot _ h2
  rw [hsq] at n1
  have hne : t ≠ 0 := by
    rintro rfl
    simp at n1
  rcases mul_self_eq_one_iff.1 (show t ^ ((p - 1) / 2) * t ^ ((p - 1) / 2) = 1 by
    rw [← pow_add, show (p - 1) / 2 + (p - 1) / 2 = p - 1 by decide]
    exact ZMod.pow_card_sub_one_eq_one hne) with hp | hm
  · rw [hp, mul_one] at n1
    exact n1 rfl
  · rw [hm] at hsq
    apply n2
    rw [cast_fmul]
    linear_combination (sqrtM1 : ZMod p) ^ 2 * hsq - t * t * curve_complete.sq_i

end Sys2Proof.Laws
end

