-- ==== Sys2Proof/Laws/Group.lean ====
section
/-! SUPPORT. The curve on natural numbers is the Edwards curve over ZMod p: the group law (R162, R163), the extended
formulas (R170, R171, R176), and the multiple by doubling and adding (R172, R173). -/

namespace Sys2Proof.Laws

open Sys2Proof.Machine

/-- Both coordinates are below p. -/
def Canonical (q : Affine) : Prop := q.x < p ∧ q.y < p

theorem affAdd_canonical (a b : Affine) : Canonical (affAdd a b) := ⟨fdiv_lt _ _, fdiv_lt _ _⟩
theorem aff_canonical (e : Ext) : Canonical (aff e) := ⟨fmul_lt _ _, fmul_lt _ _⟩
theorem identity_canonical : Canonical identity := ⟨p_pos, one_lt_p⟩
theorem basePoint_canonical : Canonical basePoint := ⟨by decide, by decide⟩

theorem nsmul_canonical (k : Nat) (q : Affine) : Canonical (nsmul k q) := by
  cases k with
  | zero => exact identity_canonical
  | succ k => exact affAdd_canonical _ _

theorem affine_eq_of_cast {a b : Affine} (ha : Canonical a) (hb : Canonical b) (hx : (a.x : ZMod p) = b.x)
    (hy : (a.y : ZMod p) = b.y) : a = b := by
  cases a
  cases b
  simp only [Affine.mk.injEq]
  exact ⟨eq_of_cast ha.1 hb.1 hx, eq_of_cast ha.2 hb.2 hy⟩

theorem onCurve_iff [Fact p.Prime] (q : Affine) : onCurve q = true ↔ Edwards.OnCurve (curveD : ZMod p) q.x q.y := by
  simp only [onCurve, decide_eq_true_eq, Edwards.OnCurve]
  rw [← cast_eq_iff (fsub_lt _ _) (fadd_lt _ _)]
  simp [pow_two, mul_assoc]

theorem identity_onCurve : onCurve identity = true := by decide +kernel
theorem basePoint_onCurve : onCurve basePoint = true := by decide +kernel

section

variable [Fact p.Prime]

theorem cast_affAdd_x (a b : Affine) :
    ((affAdd a b).x : ZMod p) = Edwards.addX (curveD : ZMod p) a.x a.y b.x b.y := by
  simp only [affAdd, Edwards.addX, cast_fdiv, cast_fadd, cast_fmul, Nat.cast_one]
  congr 1
  ring

theorem cast_affAdd_y (a b : Affine) :
    ((affAdd a b).y : ZMod p) = Edwards.addY (curveD : ZMod p) a.x a.y b.x b.y := by
  simp only [affAdd, Edwards.addY, cast_fdiv, cast_fadd, cast_fsub, cast_fmul, Nat.cast_one]
  congr 1
  ring

theorem cast_aff_x (e : Ext) : ((aff e).x : ZMod p) = (e.x : ZMod p) / e.z := by
  simp [aff, div_eq_mul_inv]

theorem cast_aff_y (e : Ext) : ((aff e).y : ZMod p) = (e.y : ZMod p) / e.z := by
  simp [aff, div_eq_mul_inv]

end

/-- The sum of two curve points is a curve point (R162). -/
theorem affAdd_onCurve {a b : Affine} (ha : onCurve a = true) (hb : onCurve b = true) :
    onCurve (affAdd a b) = true := by
  have : Fact p.Prime := ⟨p_prime⟩
  rw [onCurve_iff] at ha hb ⊢
  rw [cast_affAdd_x, cast_affAdd_y]
  exact Edwards.add_onCurve curve_complete ha hb

theorem nsmul_onCurve (k : Nat) {q : Affine} (hq : onCurve q = true) : onCurve (nsmul k q) = true := by
  induction k with
  | zero => exact identity_onCurve
  | succ k ih => exact affAdd_onCurve ih hq

theorem affAdd_comm (a b : Affine) : affAdd a b = affAdd b a := by
  have : Fact p.Prime := ⟨p_prime⟩
  apply affine_eq_of_cast (affAdd_canonical _ _) (affAdd_canonical _ _)
  · rw [cast_affAdd_x, cast_affAdd_x, Edwards.addX_comm]
  · rw [cast_affAdd_y, cast_affAdd_y, Edwards.addY_comm]

theorem affAdd_assoc {a b c : Affine} (ha : onCurve a = true) (hb : onCurve b = true) (hc : onCurve c = true) :
    affAdd (affAdd a b) c = affAdd a (affAdd b c) := by
  have : Fact p.Prime := ⟨p_prime⟩
  rw [onCurve_iff] at ha hb hc
  apply affine_eq_of_cast (affAdd_canonical _ _) (affAdd_canonical _ _)
  · simp only [cast_affAdd_x, cast_affAdd_y]
    exact Edwards.addX_assoc curve_complete ha hb hc
  · simp only [cast_affAdd_x, cast_affAdd_y]
    exact Edwards.addY_assoc curve_complete ha hb hc

theorem affAdd_identity {a : Affine} (ha : Canonical a) : affAdd a identity = a := by
  have : Fact p.Prime := ⟨p_prime⟩
  apply affine_eq_of_cast (affAdd_canonical _ _) ha
  · rw [cast_affAdd_x]
    simp [identity, Edwards.addX]
  · rw [cast_affAdd_y]
    simp [identity, Edwards.addY]

/-- (a + b)·Q = a·Q + b·Q (R163). -/
theorem nsmul_add (a b : Nat) {q : Affine} (hq : onCurve q = true) :
    nsmul (a + b) q = affAdd (nsmul a q) (nsmul b q) := by
  induction b with
  | zero => exact (affAdd_identity (nsmul_canonical a q)).symm
  | succ b ih =>
    rw [← Nat.add_assoc, nsmul, ih, nsmul, affAdd_assoc (nsmul_onCurve a hq) (nsmul_onCurve b hq) hq]

/-- The three conditions of a valid point, in the field (R160). -/
theorem validPoint_iff [Fact p.Prime] (e : Ext) : validPoint e = true ↔
    (e.z : ZMod p) ≠ 0 ∧ (e.x : ZMod p) * e.y = e.z * e.t ∧
      Edwards.OnCurve (curveD : ZMod p) ((e.x : ZMod p) / e.z) ((e.y : ZMod p) / e.z) := by
  rw [validPoint, Bool.and_eq_true, Bool.and_eq_true, onCurve_iff, cast_aff_x, cast_aff_y, decide_eq_true_eq,
    decide_eq_true_eq, ← cast_eq_iff (fmul_lt _ _) (fmul_lt _ _), ne_eq, ← cast_eq_zero e.z, and_assoc]
  simp

theorem onCurve_aff {e : Ext} (h : validPoint e = true) : onCurve (aff e) = true := by
  simp only [validPoint, Bool.and_eq_true] at h
  exact h.2

/-- A normalised curve point is a valid slot that represents the point (R166). -/
theorem norm_valid {q : Affine} (hq : onCurve q = true) : validPoint (normPoint q) = true := by
  have : Fact p.Prime := ⟨p_prime⟩
  rw [onCurve_iff] at hq
  rw [validPoint_iff]
  simp [normPoint, hq]

theorem aff_norm {q : Affine} (hq : Canonical q) : aff (normPoint q) = q := by
  have : Fact p.Prime := ⟨p_prime⟩
  apply affine_eq_of_cast (aff_canonical _) hq
  · rw [cast_aff_x]
    simp [normPoint]
  · rw [cast_aff_y]
    simp [normPoint]

/-- The coordinates of a valid point over its affine point: X = x*Z, Y = y*Z, T = x*y*Z (R14). -/
theorem valid_coordinates [Fact p.Prime] {e : Ext} (h : validPoint e = true) :
    ∃ x y z : ZMod p, z ≠ 0 ∧ Edwards.OnCurve (curveD : ZMod p) x y ∧ (e.x : ZMod p) = x * z ∧
      (e.y : ZMod p) = y * z ∧ (e.z : ZMod p) = z ∧ (e.t : ZMod p) = x * y * z ∧
      ((aff e).x : ZMod p) = x ∧ ((aff e).y : ZMod p) = y := by
  obtain ⟨hz, hxy, hc⟩ := (validPoint_iff e).1 h
  refine ⟨(e.x : ZMod p) / e.z, (e.y : ZMod p) / e.z, e.z, hz, hc, (div_mul_cancel₀ _ hz).symm,
    (div_mul_cancel₀ _ hz).symm, rfl, ?_, cast_aff_x e, cast_aff_y e⟩
  rw [div_mul_div_comm, hxy, mul_div_mul_left _ _ hz, div_mul_cancel₀ _ hz]

theorem cast_curve2D : (curve2D : ZMod p) = 2 * curveD := by
  have h : curve2D = fmul 2 curveD := by decide +kernel
  rw [h]
  simp

/-- The shape of an extended result: X = E*F, Y = G*H, Z = F*G, T = E*H with F and G not 0 is a valid point whenever
(E/G, H/F) is on the curve, and it represents that point. -/
theorem result_valid [Fact p.Prime] {e : Ext} {q : Affine} {E F G H : ZMod p} (hF : F ≠ 0) (hG : G ≠ 0)
    (hx : (e.x : ZMod p) = E * F) (hy : (e.y : ZMod p) = G * H) (hz : (e.z : ZMod p) = F * G)
    (ht : (e.t : ZMod p) = E * H) (hqx : (q.x : ZMod p) = E / G) (hqy : (q.y : ZMod p) = H / F)
    (hq : Canonical q) (hon : onCurve q = true) : validPoint e = true ∧ aff e = q := by
  have h1 : (e.x : ZMod p) / e.z = q.x := by rw [hx, hz, hqx, mul_comm F G, mul_div_mul_right _ _ hF]
  have h2 : (e.y : ZMod p) / e.z = q.y := by rw [hy, hz, hqy, mul_comm G H, mul_div_mul_right _ _ hG]
  refine ⟨(validPoint_iff e).2 ⟨by rw [hz]; exact mul_ne_zero hF hG, ?_, ?_⟩, ?_⟩
  · rw [hx, hy, hz, ht]
    ring
  · rw [h1, h2]
    exact (onCurve_iff q).1 hon
  · exact affine_eq_of_cast (aff_canonical e) hq (by rw [cast_aff_x, h1]) (by rw [cast_aff_y, h2])

/-- PT_ADD's formulas add the represented points, without exception (R170, R176). -/
theorem extAdd_spec {a b : Ext} (ha : validPoint a = true) (hb : validPoint b = true) :
    validPoint (extAdd a b) = true ∧ aff (extAdd a b) = affAdd (aff a) (aff b) := by
  have : Fact p.Prime := ⟨p_prime⟩
  have h2 := (curve_complete).two_ne
  obtain ⟨x1, y1, z1, hz1, hc1, ax, ay, az, at', hx1, hy1⟩ := valid_coordinates ha
  obtain ⟨x2, y2, z2, hz2, hc2, bx, by', bz, bt, hx2, hy2⟩ := valid_coordinates hb
  have hp := Edwards.one_add_ne_zero curve_complete hc1 hc2
  have hm := Edwards.one_sub_ne_zero curve_complete hc1 hc2
  have hw : 2 * (z1 * z2) ≠ 0 := mul_ne_zero h2 (mul_ne_zero hz1 hz2)
  refine result_valid (E := (x1 * y2 + y1 * x2) * (2 * (z1 * z2)))
    (F := (1 - curveD * x1 * x2 * y1 * y2) * (2 * (z1 * z2)))
    (G := (1 + curveD * x1 * x2 * y1 * y2) * (2 * (z1 * z2)))
    (H := (y1 * y2 + x1 * x2) * (2 * (z1 * z2))) (mul_ne_zero hm hw) (mul_ne_zero hp hw) ?_ ?_ ?_ ?_ ?_ ?_
    (affAdd_canonical _ _) (affAdd_onCurve (onCurve_aff ha) (onCurve_aff hb))
  · simp only [extAdd, cast_fmul, cast_fadd, cast_fsub, cast_curve2D, Nat.cast_ofNat, ax, ay, az, at', bx, by', bz, bt]
    ring
  · simp only [extAdd, cast_fmul, cast_fadd, cast_fsub, cast_curve2D, Nat.cast_ofNat, ax, ay, az, at', bx, by', bz, bt]
    ring
  · simp only [extAdd, cast_fmul, cast_fadd, cast_fsub, cast_curve2D, Nat.cast_ofNat, az, at', bz, bt]
    ring
  · simp only [extAdd, cast_fmul, cast_fadd, cast_fsub, ax, ay, bx, by']
    ring
  · rw [cast_affAdd_x, hx1, hy1, hx2, hy2, mul_div_mul_right _ _ hw, Edwards.addX]
  · rw [cast_affAdd_y, hx1, hy1, hx2, hy2, mul_div_mul_right _ _ hw, Edwards.addY]

/-- PT_DBL's formulas double the represented point (R171, R176). -/
theorem extDbl_spec {a : Ext} (ha : validPoint a = true) :
    validPoint (extDbl a) = true ∧ aff (extDbl a) = affAdd (aff a) (aff a) := by
  have : Fact p.Prime := ⟨p_prime⟩
  obtain ⟨x, y, z, hz, hc, ax, ay, az, at', hx, hy⟩ := valid_coordinates ha
  have hp := Edwards.one_add_ne_zero curve_complete hc hc
  have hm := Edwards.one_sub_ne_zero curve_complete hc hc
  have hw : -(z * z) ≠ 0 := neg_ne_zero.2 (mul_ne_zero hz hz)
  have hw' : z * z ≠ 0 := mul_ne_zero hz hz
  have hcurve : y ^ 2 - x ^ 2 = 1 + curveD * x ^ 2 * y ^ 2 := hc
  refine result_valid (E := (x * y + y * x) * -(z * z)) (F := (1 - curveD * x * x * y * y) * (z * z))
    (G := (1 + curveD * x * x * y * y) * -(z * z)) (H := (y * y + x * x) * (z * z))
    (mul_ne_zero hm hw') (mul_ne_zero hp hw) ?_ ?_ ?_ ?_ ?_ ?_
    (affAdd_canonical _ _) (affAdd_onCurve (onCurve_aff ha) (onCurve_aff ha))
  · simp only [extDbl, cast_fmul, cast_fadd, cast_fsub, Nat.cast_ofNat, ax, ay, az]
    linear_combination 2 * x * y * z ^ 4 * hcurve
  · simp only [extDbl, cast_fmul, cast_fadd, cast_fsub, ax, ay]
    linear_combination -(x ^ 2 + y ^ 2) * z ^ 4 * hcurve
  · simp only [extDbl, cast_fmul, cast_fadd, cast_fsub, Nat.cast_ofNat, ax, ay, az]
    linear_combination (y ^ 2 - x ^ 2 - 1 + curveD * x ^ 2 * y ^ 2) * z ^ 4 * hcurve
  · simp only [extDbl, cast_fmul, cast_fadd, cast_fsub, ax, ay]
    ring
  · rw [cast_affAdd_x, hx, hy, mul_div_mul_right _ _ hw, Edwards.addX]
  · rw [cast_affAdd_y, hx, hy, mul_div_mul_right _ _ hw', Edwards.addY]

/-- Doubling and adding computes R163's multiple of a curve point. -/
theorem extSmul_spec {q : Affine} (hq : Canonical q) (hon : onCurve q = true) (n k : Nat) (hk : k < 2 ^ n) :
    validPoint (extSmul n k (normPoint q)) = true ∧ aff (extSmul n k (normPoint q)) = nsmul k q := by
  induction n generalizing k with
  | zero =>
    have : k = 0 := by simpa using hk
    subst this
    exact ⟨norm_valid identity_onCurve, aff_norm identity_canonical⟩
  | succ n ih =>
    obtain ⟨hv, he⟩ := ih (k / 2) (by rw [pow_succ] at hk; omega)
    obtain ⟨dv, de⟩ := extDbl_spec hv
    rw [he, ← nsmul_add _ _ hon] at de
    simp only [extSmul]
    split
    · next ho =>
      obtain ⟨sv, se⟩ := extAdd_spec dv (norm_valid hon)
      refine ⟨sv, ?_⟩
      rw [se, de, aff_norm hq, show k = k / 2 + k / 2 + 1 by omega, nsmul]
      congr 2
      omega
    · next ho =>
      refine ⟨dv, ?_⟩
      rw [de]
      congr 1
      omega

/-- The model's multiple is R163's, for every scalar of 256 bits and every curve point. -/
theorem smul_eq_nsmul (k : Nat) (hk : k < 2 ^ 256) {q : Affine} (hq : Canonical q) (hon : onCurve q = true) :
    smul k q = nsmul k q := (extSmul_spec hq hon 256 k hk).2

/-- The order of the base point: L·B is the identity (R13). -/
theorem nsmul_L_basePoint : nsmul L basePoint = identity := by
  rw [← smul_eq_nsmul L (by decide) basePoint_canonical basePoint_onCurve]
  decide +kernel

/-- The integers behind a canonical number that is a given field value (R7). -/
theorem eq_emod_of_cast {n : Nat} {z : Int} (hn : n < p) (h : (n : ZMod p) = (z : ZMod p)) : (n : Int) = z % p := by
  have h1 : ((n : Int) : ZMod p) = (z : ZMod p) := by simpa using h
  have h2 := (ZMod.intCast_eq_intCast_iff' _ _ _).1 h1
  rw [← h2, Int.emod_eq_of_lt (by omega) (by omega)]

end Sys2Proof.Laws
end

