-- ==== Sys2Proof/Laws/Coding.lean ====
section
/-! SUPPORT. Point encoding and decoding (R164, R165): decoding answers exactly the curve point whose encoding is the
word, if there is one and the small-order policy lets it pass. -/

namespace Sys2Proof.Laws

open Sys2Proof.Machine

theorem encodePoint_toNat {q : Affine} (hq : q.y < p) : (encodePoint q).toNat = q.y + 2 ^ 255 * (q.x % 2) := by
  have := p_lt_two_pow_255
  rw [encodePoint, BitVec.toNat_ofNat, Nat.mod_eq_of_lt (by omega)]

/-- The two fields of a word, and the word from them (R164, R165). -/
theorem word_fields (w : Word) :
    (w.extractLsb' 0 255).toNat = w.toNat % 2 ^ 255 ∧ (w.extractLsb' 255 1).toNat = w.toNat / 2 ^ 255 := by
  have := w.isLt
  constructor
  · simp [BitVec.extractLsb'_toNat]
  · rw [BitVec.extractLsb'_toNat, Nat.shiftRight_eq_div_pow, Nat.mod_eq_of_lt (by omega)]

theorem encodePoint_eq_iff {q : Affine} (hq : q.y < p) (w : Word) :
    encodePoint q = w ↔ q.y = w.toNat % 2 ^ 255 ∧ q.x % 2 = w.toNat / 2 ^ 255 := by
  have := p_lt_two_pow_255
  have := w.isLt
  rw [← BitVec.toNat_inj, encodePoint_toNat hq]
  omega

/-- The denominator of the candidate x^2 is never 0 (R165). -/
theorem candidate_den_ne_zero [Fact p.Prime] (y : ZMod p) : (curveD : ZMod p) * y * y + 1 ≠ 0 := by
  intro h
  have hy : y ≠ 0 := by
    rintro rfl
    simp at h
  refine curve_complete.nonsquare ⟨sqrtM1 / y, ?_⟩
  rw [div_mul_div_comm, eq_div_iff (mul_ne_zero hy hy)]
  linear_combination h - curve_complete.sq_i

/-- The candidate x^2 of R165. -/
def candidate (y : Nat) : Nat :=
  fmul (fsub (fmul y y) 1) (finv (fadd (fmul curveD (fmul y y)) 1))

/-- (x, y) is a curve point exactly when x^2 is the candidate. -/
theorem onCurve_iff_candidate [Fact p.Prime] (q : Affine) :
    onCurve q = true ↔ (q.x : ZMod p) * q.x = candidate q.y := by
  have hv := candidate_den_ne_zero (q.y : ZMod p)
  rw [onCurve_iff, Edwards.OnCurve, candidate, cast_fmul, cast_finv, cast_fsub, cast_fadd, cast_fmul, cast_fmul,
    cast_fmul, Nat.cast_one, ← div_eq_mul_inv, eq_div_iff (by rwa [← mul_assoc])]
  constructor <;> intro h
  · linear_combination -h
  · linear_combination -h

/-- decodePoint with the fields of the word named. -/
theorem decodePoint_eq (r : Bool) (w : Word) : decodePoint r w =
    if p ≤ w.toNat % 2 ^ 255 then none
    else match fsqrt (candidate (w.toNat % 2 ^ 255)) with
      | none => none
      | some t =>
        if candidate (w.toNat % 2 ^ 255) = 0 ∧ w.toNat / 2 ^ 255 = 1 then none
        else if r && smallOrder ⟨if t % 2 = w.toNat / 2 ^ 255 then t else p - t, w.toNat % 2 ^ 255⟩ then none
          else some ⟨if t % 2 = w.toNat / 2 ^ 255 then t else p - t, w.toNat % 2 ^ 255⟩ := by
  simp only [decodePoint, candidate, (word_fields w).1, (word_fields w).2]
  split
  · rfl
  · cases fsqrt _ <;> rfl

theorem candidate_lt (y : Nat) : candidate y < p := fmul_lt _ _

/-- A root of the candidate squares to it. -/
theorem root_sq {y t : Nat} (h : fsqrt (candidate y) = some t) : t < p ∧ (t : ZMod p) * t = candidate y := by
  obtain ⟨hlt, hsq⟩ := fsqrt_some h
  refine ⟨hlt, ?_⟩
  rw [Nat.mod_eq_of_lt (candidate_lt y)] at hsq
  rw [← cast_fmul, hsq]

/-- What decoding answers without the small-order policy is the curve point whose encoding is the word (R165). -/
theorem decodePoint_false_iff (w : Word) (q : Affine) :
    decodePoint false w = some q ↔ Canonical q ∧ onCurve q = true ∧ encodePoint q = w := by
  have : Fact p.Prime := ⟨p_prime⟩
  have hpodd : p % 2 = 1 := by decide
  have hs : w.toNat / 2 ^ 255 < 2 := by
    have := w.isLt
    omega
  rw [decodePoint_eq]
  simp only [Bool.false_and, Bool.false_eq_true, if_false]
  constructor
  · intro h
    split at h
    · exact absurd h (by simp)
    next hy =>
    split at h
    · exact absurd h (by simp)
    next t ht =>
    obtain ⟨hlt, hsq⟩ := root_sq ht
    split at h
    · exact absurd h (by simp)
    next hx =>
    obtain rfl := Option.some.inj h
    have htpos : t % 2 ≠ w.toNat / 2 ^ 255 → 0 < t := by
      intro hne
      rcases Nat.eq_zero_or_pos t with h0 | h0
      · exfalso
        subst h0
        apply hx
        refine ⟨?_, by omega⟩
        apply eq_of_cast (candidate_lt _) p_pos
        rw [← hsq]
        simp
      · exact h0
    have hcan : (if t % 2 = w.toNat / 2 ^ 255 then t else p - t) < p := by
      split
      · exact hlt
      next hne =>
      have := htpos hne
      omega
    refine ⟨⟨hcan, Nat.lt_of_not_le hy⟩, ?_, ?_⟩
    · rw [onCurve_iff_candidate]
      simp only
      split
      · exact hsq
      · rw [Nat.cast_sub hlt.le, ← hsq, ZMod.natCast_self]
        ring
    · rw [encodePoint_eq_iff (Nat.lt_of_not_le hy)]
      refine ⟨rfl, ?_⟩
      simp only
      split
      · assumption
      next hne =>
      have := htpos hne
      omega
  · rintro ⟨⟨hx, hy⟩, hon, henc⟩
    rw [encodePoint_eq_iff hy] at henc
    obtain ⟨h1, h2⟩ := henc
    rw [← h1, ← h2, if_neg (by omega)]
    rw [onCurve_iff_candidate] at hon
    split
    · next hn => exact absurd ⟨(q.x : ZMod p), hon.symm⟩ (fsqrt_none hn)
    next t ht =>
    obtain ⟨hlt, hsq⟩ := root_sq ht
    have hroots : t = q.x ∨ (q.x ≠ 0 ∧ t = p - q.x) := by
      rw [← hsq] at hon
      rcases mul_self_eq_mul_self_iff.1 hon with h | h
      · exact Or.inl (eq_of_cast hlt hx h.symm)
      · by_cases h0 : q.x = 0
        · left
          rw [h0, Nat.cast_zero, zero_eq_neg, cast_eq_zero, Nat.mod_eq_of_lt hlt] at h
          omega
        · right
          refine ⟨h0, eq_of_cast hlt (by omega) ?_⟩
          rw [Nat.cast_sub hx.le, ZMod.natCast_self, h]
          ring
    have hno : ¬ (candidate q.y = 0 ∧ q.x % 2 = 1) := by
      rintro ⟨hz, ho⟩
      rw [hz, Nat.cast_zero, mul_self_eq_zero, cast_eq_zero, Nat.mod_eq_of_lt hx] at hon
      omega
    rw [if_neg hno]
    congr 1
    cases q with
    | mk x y =>
    simp only [Affine.mk.injEq, and_true] at hroots ⊢
    rcases hroots with rfl | ⟨h0, rfl⟩
    · simp
    · simp only at hx
      rw [if_neg (by omega)]
      omega

/-- With the small-order policy decoding also fails on points of small order (R165). -/
theorem decodePoint_true_iff (w : Word) (q : Affine) :
    decodePoint true w = some q ↔ decodePoint false w = some q ∧ smallOrder q = false := by
  rw [decodePoint_eq, decodePoint_eq]
  split
  · simp
  cases fsqrt (candidate (w.toNat % 2 ^ 255)) with
  | none => simp
  | some t =>
    simp only [Bool.true_and, Bool.false_and, Bool.false_eq_true, if_false]
    generalize (Affine.mk (if t % 2 = w.toNat / 2 ^ 255 then t else p - t) (w.toNat % 2 ^ 255)) = q'
    split
    · simp
    · cases h : smallOrder q'
      · simp only [Bool.false_eq_true, if_false, Option.some.injEq]
        exact ⟨fun e => ⟨e, e ▸ h⟩, fun e => e.1⟩
      · simp only [if_true, Option.some.injEq]
        constructor
        · intro e
          exact absurd e (by simp)
        · rintro ⟨rfl, e⟩
          rw [h] at e
          exact absurd e (by simp)

/-- Decoding under either policy (R165). -/
theorem decodePoint_iff (r : Bool) (w : Word) (q : Affine) :
    decodePoint r w = some q ↔
      Canonical q ∧ onCurve q = true ∧ encodePoint q = w ∧ (r = true → smallOrder q = false) := by
  cases r
  · rw [decodePoint_false_iff]
    simp
  · rw [decodePoint_true_iff, decodePoint_false_iff]
    simp [and_assoc]

/-- The encoding of a canonical curve point determines it (R164). -/
theorem encodePoint_injective {a b : Affine} (ha : Canonical a) (hb : Canonical b) (hca : onCurve a = true)
    (hcb : onCurve b = true) (h : encodePoint a = encodePoint b) : a = b := by
  have h1 := (decodePoint_false_iff (encodePoint a) a).2 ⟨ha, hca, rfl⟩
  have h2 := (decodePoint_false_iff (encodePoint a) b).2 ⟨hb, hcb, h.symm⟩
  rw [h1] at h2
  exact Option.some.inj h2

/-- The curve equation over the integers (R160). -/
theorem satisfiesCurve_iff (q : Affine) : SatisfiesCurve q ↔ onCurve q = true := by
  have : Fact p.Prime := ⟨p_prime⟩
  rw [onCurve_iff, Edwards.OnCurve, SatisfiesCurve, ← Int.dvd_iff_emod_eq_zero, ← ZMod.intCast_zmod_eq_zero_iff_dvd]
  push_cast
  rw [← sub_eq_zero (b := 1 + _)]
  ring_nf

/-- The small-order test is R165's. -/
theorem smallOrder_iff {q : Affine} (hq : Canonical q) (hon : onCurve q = true) :
    smallOrder q = true ↔ nsmul 8 q = identity := by
  rw [smallOrder, decide_eq_true_eq, smul_eq_nsmul 8 (by decide) hq hon]

end Sys2Proof.Laws
end

