-- ==== Sys2Proof/Laws/Encoding.lean ====
section
/-! SUPPORT. The fields of a packed command word (R80, R81, R93). -/

namespace Sys2Proof.Laws

theorem packCommand_toNat (op : Nat) (rd ra rb rc : Idx) (h : op < 256) :
    (packCommand op rd ra rb rc).toNat =
      op + rd.val * 2 ^ 8 + ra.val * 2 ^ 13 + rb.val * 2 ^ 18 + rc.val * 2 ^ 23 := by
  rw [packCommand, BitVec.toNat_ofNat, Nat.mod_eq_of_lt (by omega)]

theorem fieldOP_pack (op : Nat) (rd ra rb rc : Idx) (h : op < 256) : fieldOP (packCommand op rd ra rb rc) = op := by
  rw [fieldOP, packCommand_toNat _ _ _ _ _ h]
  omega

theorem fieldRSV_pack (op : Nat) (rd ra rb rc : Idx) (h : op < 256) : fieldRSV (packCommand op rd ra rb rc) = 0 := by
  rw [fieldRSV, packCommand_toNat _ _ _ _ _ h]
  omega

theorem fieldRD_pack (op : Nat) (rd ra rb rc : Idx) (h : op < 256) : fieldRD (packCommand op rd ra rb rc) = rd := by
  apply Fin.ext
  simp only [fieldRD, operandField, packCommand_toNat _ _ _ _ _ h]
  omega

theorem fieldRA_pack (op : Nat) (rd ra rb rc : Idx) (h : op < 256) : fieldRA (packCommand op rd ra rb rc) = ra := by
  apply Fin.ext
  simp only [fieldRA, operandField, packCommand_toNat _ _ _ _ _ h]
  omega

theorem fieldRB_pack (op : Nat) (rd ra rb rc : Idx) (h : op < 256) : fieldRB (packCommand op rd ra rb rc) = rb := by
  apply Fin.ext
  simp only [fieldRB, operandField, packCommand_toNat _ _ _ _ _ h]
  omega

theorem fieldRC_pack (op : Nat) (rd ra rb rc : Idx) (h : op < 256) : fieldRC (packCommand op rd ra rb rc) = rc := by
  apply Fin.ext
  simp only [fieldRC, operandField, packCommand_toNat _ _ _ _ _ h]
  omega

/-- A word is its six fields. -/
theorem word_eq_fields (c : BusWord) : c.toNat = fieldOP c + (fieldRD c).val * 2 ^ 8 + (fieldRA c).val * 2 ^ 13 +
    (fieldRB c).val * 2 ^ 18 + (fieldRC c).val * 2 ^ 23 + fieldRSV c * 2 ^ 28 := by
  simp only [fieldOP, fieldRD, fieldRA, fieldRB, fieldRC, fieldRSV, operandField]
  omega

/-- A packed word decodes to the command of its OP and fields (R81, R85). -/
theorem decode_pack (op : Nat) (rd ra rb rc : Idx) (h : op < 256) :
    decode (packCommand op rd ra rb rc) = (commandOf op rd ra rb rc).elim .illegalOpcode .instr := by
  unfold decode
  simp only [fieldRSV_pack _ _ _ _ _ h, fieldOP_pack _ _ _ _ _ h, fieldRD_pack _ _ _ _ _ h, fieldRA_pack _ _ _ _ _ h,
    fieldRB_pack _ _ _ _ _ h, fieldRC_pack _ _ _ _ _ h, ne_eq, not_true, if_false]
  cases commandOf op rd ra rb rc <;> rfl

/-- When a word decodes to a command (R84, R86). -/
theorem decode_eq_instr_iff (c : BusWord) (i : Instr) : decode c = .instr i ↔
    fieldRSV c = 0 ∧ commandOf (fieldOP c) (fieldRD c) (fieldRA c) (fieldRB c) (fieldRC c) = some i := by
  unfold decode
  by_cases h : fieldRSV c = 0
  · simp only [h, ne_eq, not_true, if_false, true_and]
    cases commandOf (fieldOP c) (fieldRD c) (fieldRA c) (fieldRB c) (fieldRC c) <;> simp
  · simp [h]

/-- The opcode map gives a command only under its own OP (R85). -/
theorem opcode_of_commandOf {op : Nat} {rd ra rb rc : Idx} {i : Instr} (h : commandOf op rd ra rb rc = some i) :
    op = i.opcode := by
  unfold commandOf at h
  split at h <;> simp at h <;> subst h <;> rfl

/-- RSV and OP as bit fields (R6, R81). -/
theorem extractLsb'_rsv (c : BusWord) : c.extractLsb' 28 4 = 0#4 ↔ fieldRSV c = 0 := by
  have := c.isLt
  rw [← BitVec.toNat_inj, BitVec.extractLsb'_toNat, fieldRSV, Nat.shiftRight_eq_div_pow, BitVec.toNat_ofNat]
  omega

theorem extractLsb'_op (c : BusWord) : (c.extractLsb' 0 8).toNat = fieldOP c := by
  simp [BitVec.extractLsb'_toNat, fieldOP]

/-- A mask of the lowest `m` bits and of bits 31:28 keeps those bits. -/
theorem toNat_and_mask (c : BusWord) (m : Nat) (hm : m ≤ 28) :
    (c &&& BitVec.ofNat 32 (2 ^ m - 1 + 0xF0000000)).toNat = c.toNat % 2 ^ m + c.toNat / 2 ^ 28 * 2 ^ 28 := by
  have hc := c.isLt
  have hpow : 2 ^ m ≤ 2 ^ 28 := Nat.pow_le_pow_right (by decide) hm
  have h1 : 0 < 2 ^ m := Nat.two_pow_pos m
  have hM : (2 ^ m - 1 + 0xF0000000) = 2 ^ 28 * 15 + (2 ^ m - 1) := by omega
  have hmod : c.toNat % 2 ^ m < 2 ^ 28 := lt_of_lt_of_le (Nat.mod_lt _ h1) hpow
  rw [BitVec.toNat_and, BitVec.toNat_ofNat, Nat.mod_eq_of_lt (by omega), hM,
    show c.toNat % 2 ^ m + c.toNat / 2 ^ 28 * 2 ^ 28 = 2 ^ 28 * (c.toNat / 2 ^ 28) + c.toNat % 2 ^ m by ring]
  apply Nat.eq_of_testBit_eq
  intro k
  rw [Nat.testBit_and, Nat.testBit_two_pow_mul_add _ (by omega), Nat.testBit_two_pow_mul_add _ hmod]
  split
  · rw [Nat.testBit_two_pow_sub_one, Nat.testBit_mod_two_pow, Bool.and_comm]
  · rw [Nat.testBit_div_two_pow, Nat.sub_add_cancel (by omega)]
    by_cases h32 : k < 32
    · have h15 : ∀ j < 4, Nat.testBit 15 j = true := by decide
      rw [h15 _ (by omega), Bool.and_true]
    · have hk : c.toNat.testBit k = false :=
        Nat.testBit_lt_two_pow (lt_of_lt_of_le hc (Nat.pow_le_pow_right (by decide) (by omega)))
      rw [hk, Bool.false_and]

end Sys2Proof.Laws
end

