-- ==== Sys2Proof/Laws/PerInstr.lean ====
section
/-! SUPPORT. Laws of all instructions, one lemma per constructor. -/

namespace Sys2Proof.Laws

/-- The encoding of a command carries its OP (R85) and RSV = 0 (R84). -/
def EncodeShape.Statement (i : Instr) : Prop :=
  fieldOP (encode i) = i.opcode ∧ fieldRSV (encode i) = 0 ∧ i.opcode < 256

theorem opcode_lt (i : Instr) : i.opcode < 256 := by
  cases i <;> simp [Instr.opcode]

theorem encodeShape_of_pack {i : Instr} {rd ra rb rc : Idx} (h : encode i = packCommand i.opcode rd ra rb rc) :
    EncodeShape.Statement i := by
  have ho := opcode_lt i
  refine ⟨?_, ?_, ho⟩
  · rw [h, fieldOP_pack _ _ _ _ _ ho]
  · rw [h, fieldRSV_pack _ _ _ _ _ ho]

theorem EncodeShape.nop : EncodeShape.Statement .nop :=
  encodeShape_of_pack (rd := 0) (ra := 0) (rb := 0) (rc := 0) rfl

theorem EncodeShape.feAdd (rd ra rb : Idx) : EncodeShape.Statement (.feAdd rd ra rb) :=
  encodeShape_of_pack (rd := rd) (ra := ra) (rb := rb) (rc := 0) rfl

theorem EncodeShape.feSub (rd ra rb : Idx) : EncodeShape.Statement (.feSub rd ra rb) :=
  encodeShape_of_pack (rd := rd) (ra := ra) (rb := rb) (rc := 0) rfl

theorem EncodeShape.feMul (rd ra rb : Idx) : EncodeShape.Statement (.feMul rd ra rb) :=
  encodeShape_of_pack (rd := rd) (ra := ra) (rb := rb) (rc := 0) rfl

theorem EncodeShape.feSqr (rd ra : Idx) : EncodeShape.Statement (.feSqr rd ra) :=
  encodeShape_of_pack (rd := rd) (ra := ra) (rb := 0) (rc := 0) rfl

theorem EncodeShape.feInv (rd ra : Idx) : EncodeShape.Statement (.feInv rd ra) :=
  encodeShape_of_pack (rd := rd) (ra := ra) (rb := 0) (rc := 0) rfl

theorem EncodeShape.fePow (rd ra rb : Idx) : EncodeShape.Statement (.fePow rd ra rb) :=
  encodeShape_of_pack (rd := rd) (ra := ra) (rb := rb) (rc := 0) rfl

theorem EncodeShape.feCsel (rd ra rb rc : Idx) : EncodeShape.Statement (.feCsel rd ra rb rc) :=
  encodeShape_of_pack (rd := rd) (ra := ra) (rb := rb) (rc := rc) rfl

theorem EncodeShape.scRed512 (rd ra : Idx) : EncodeShape.Statement (.scRed512 rd ra) :=
  encodeShape_of_pack (rd := rd) (ra := ra) (rb := 0) (rc := 0) rfl

theorem EncodeShape.scMuladd (rd ra rb rc : Idx) : EncodeShape.Statement (.scMuladd rd ra rb rc) :=
  encodeShape_of_pack (rd := rd) (ra := ra) (rb := rb) (rc := rc) rfl

theorem EncodeShape.scClamp (rd ra : Idx) : EncodeShape.Statement (.scClamp rd ra) :=
  encodeShape_of_pack (rd := rd) (ra := ra) (rb := 0) (rc := 0) rfl

theorem EncodeShape.ptAdd (rd ra rb : Idx) : EncodeShape.Statement (.ptAdd rd ra rb) :=
  encodeShape_of_pack (rd := rd) (ra := ra) (rb := rb) (rc := 0) rfl

theorem EncodeShape.ptDbl (rd ra : Idx) : EncodeShape.Statement (.ptDbl rd ra) :=
  encodeShape_of_pack (rd := rd) (ra := ra) (rb := 0) (rc := 0) rfl

theorem EncodeShape.ptSmul (rd ra rb : Idx) : EncodeShape.Statement (.ptSmul rd ra rb) :=
  encodeShape_of_pack (rd := rd) (ra := ra) (rb := rb) (rc := 0) rfl

theorem EncodeShape.ptSmulb (rd ra : Idx) : EncodeShape.Statement (.ptSmulb rd ra) :=
  encodeShape_of_pack (rd := rd) (ra := ra) (rb := 0) (rc := 0) rfl

theorem EncodeShape.ptEnc (rd ra : Idx) : EncodeShape.Statement (.ptEnc rd ra) :=
  encodeShape_of_pack (rd := rd) (ra := ra) (rb := 0) (rc := 0) rfl

theorem EncodeShape.ptDec (rd ra : Idx) : EncodeShape.Statement (.ptDec rd ra) :=
  encodeShape_of_pack (rd := rd) (ra := ra) (rb := 0) (rc := 0) rfl

end Sys2Proof.Laws
end

