-- ==== Sys2Proof/Laws/Step.lean ====
section
/-! SUPPORT. What a step does, by its event, and what a command's completion leaves (R61, R102, R230). -/

namespace Sys2Proof.Laws

open Sys2Proof.Machine

theorem step_nil (s : State) (h : s.agenda = []) : step s = runQuiet s := by
  rw [step, h]

theorem step_cons (s : State) (e : Event) (rest : List Event) (h : s.agenda = e :: rest) :
    step s = runEvent e { s with agenda := rest } := by
  rw [step, h]

/-- Every step answers a next state: nothing stops the block. -/
theorem engineStep_cases (s : State) :
    (∃ e, engineStep s = raise s e) ∨ ∃ i, decode s.lastcmd = .instr i ∧ engineStep s = exec i s := by
  unfold engineStep
  cases h : decode s.lastcmd with
  | reservedField => exact Or.inl ⟨_, rfl⟩
  | illegalOpcode => exact Or.inl ⟨_, rfl⟩
  | instr i => exact Or.inr ⟨i, rfl, rfl⟩

/-- The codes are 1 to 4 (R200). -/
theorem code_range (e : ErrCode) : 1 ≤ e.code.toNat ∧ e.code.toNat ≤ 4 := by
  cases e <;> decide

/-- A command's completion as one state: the words, the draws and the code it leaves (R102). -/
theorem exec_eq_finish (i : Instr) (s : State) : ∃ (w : Vector Word 32) (n : Nat) (c : BitVec 4), c.toNat ≤ 4 ∧
    (c ≠ 0#4 → w = s.w ∧ n = s.draws) ∧ exec i s = .next (finish { s with w := w, draws := n } c) := by
  rcases exec_cases i s with ⟨-, h⟩ | ⟨-, -, h⟩ | ⟨-, n, ws, -, -, h⟩
  · exact ⟨s.w, s.draws, 2#4, by decide, fun _ => ⟨rfl, rfl⟩, h⟩
  · exact ⟨s.w, s.draws, 3#4, by decide, fun _ => ⟨rfl, rfl⟩, h⟩
  · exact ⟨_, n, 0#4, by decide, fun hc => absurd rfl hc, h⟩

/-- The Engine's step as one state (R102). -/
theorem engineStep_eq_finish (s : State) : ∃ (w : Vector Word 32) (n : Nat) (c : BitVec 4), c.toNat ≤ 4 ∧
    engineStep s = .next (finish { s with w := w, draws := n } c) := by
  rcases engineStep_cases s with ⟨e, h⟩ | ⟨i, -, h⟩
  · exact ⟨s.w, s.draws, e.code, (code_range e).2, h⟩
  · obtain ⟨w, n, c, hc, -, he⟩ := exec_eq_finish i s
    exact ⟨w, n, c, hc, h.trans he⟩

/-- The reset values are in every word (R37). -/
theorem applyReset_atReset (s : State) : AtReset (applyReset s) where
  w i := by
    simp only [State.word, applyReset_w, Vector.getElem_replicate]
  busy := rfl
  done := rfl
  cmdovr := rfl
  accerr := rfl
  ie := rfl
  err := rfl
  lastcmd := rfl

/-- The Engine's turn as one state: nothing, or the completion (R102). -/
theorem engineTurn_eq (s : State) : (s.busy = false ∧ engineTurn s = .next s) ∨
    (s.busy = true ∧ ∃ (w : Vector Word 32) (n : Nat) (c : BitVec 4), c.toNat ≤ 4 ∧
      engineTurn s = .next (finish { s with w := w, draws := n } c)) := by
  unfold engineTurn
  cases hb : s.busy
  · exact Or.inl ⟨rfl, rfl⟩
  · exact Or.inr ⟨rfl, engineStep_eq_finish s⟩

/-- In reset every step leaves the reset values, and the pin is low or has gone high (R230). -/
theorem step_of_reset (s : State) (h : s.rstN = false) :
    step s = .next (applyReset { s with agenda := s.agenda.tail }) ∨
      step s = .next (releaseReset { s with agenda := s.agenda.tail }) := by
  cases ha : s.agenda with
  | nil =>
    left
    rw [step_nil s ha, runQuiet, h]
    cases s
    simp_all
  | cons e rest =>
    rw [step_cons s _ _ ha]
    rcases e with e | _ | ⟨_ | _⟩ <;> simp [runEvent, h]

/-- Everything a step can do out of reset: the Engine's turn, a transfer, a change of the pin (R61). -/
theorem step_cases (s : State) (h : s.rstN = true) :
    (EngineNext s ∧ step s = engineTurn { s with agenda := s.agenda.tail }) ∨
    (∃ tr rest, s.agenda = .access tr :: rest ∧ step s = .next (busAccess { s with agenda := rest } tr)) ∨
    (∃ rest, s.agenda = .rstPin true :: rest ∧ step s = .next { s with agenda := rest }) ∨
    (∃ rest, s.agenda = .rstPin false :: rest ∧ step s = .next (hardReset { s with agenda := rest })) := by
  cases ha : s.agenda with
  | nil =>
    refine Or.inl ⟨Or.inl ha, ?_⟩
    rw [step_nil s ha, runQuiet, if_pos h]
    cases s
    simp_all
  | cons e rest =>
    rw [step_cons s _ _ ha]
    rcases e with e | _ | ⟨_ | _⟩ <;> simp only [runEvent, h]
    · exact Or.inr (Or.inl ⟨_, _, rfl, rfl⟩)
    · exact Or.inl ⟨Or.inr ⟨rest, ha⟩, rfl⟩
    · exact Or.inr (Or.inr (Or.inr ⟨_, rfl, rfl⟩))
    · exact Or.inr (Or.inr (Or.inl ⟨_, rfl, rfl⟩))

/-- One step of a run. -/
theorem run_succ (M : Host.Core) (k : Nat) (s t : M.State) (h : M.step s = .next t) : M.run (k + 1) s = M.run k t := by
  simp only [Host.Core.run, h]

/-- A command reads the operand file, the parameter and the draw counter alone: on two states that agree on them it
writes the same words and leaves the same code (R102, R103). -/
theorem exec_congr (i : Instr) (s s' : State) (hw : s.w = s'.w) (hd : s.drso = s'.drso) (hn : s.draws = s'.draws) :
    ∃ (w : Vector Word 32) (n : Nat) (c : BitVec 4),
      exec i s = .next (finish { s with w := w, draws := n } c) ∧
      exec i s' = .next (finish { s' with w := w, draws := n } c) := by
  have comp : ∀ n ws, exec i s = complete { s with draws := n } ws → exec i s' = complete { s' with draws := n } ws →
      ∃ (w : Vector Word 32) (n : Nat) (c : BitVec 4), exec i s = .next (finish { s with w := w, draws := n } c) ∧
        exec i s' = .next (finish { s' with w := w, draws := n } c) :=
    fun n ws h h' => ⟨applyWrites s.w ws, n, 0#4, h, by rw [h', hw]; rfl⟩
  have err : ∀ e, exec i s = raise s e → exec i s' = raise s' e →
      ∃ (w : Vector Word 32) (n : Nat) (c : BitVec 4), exec i s = .next (finish { s with w := w, draws := n } c) ∧
        exec i s' = .next (finish { s' with w := w, draws := n } c) := by
    intro e h h'
    refine ⟨s.w, s.draws, e.code, h, h'.trans ?_⟩
    rw [hw, hn]
    rfl
  have hword : ∀ j, s'.word j = s.word j := fun j => by rw [State.word, State.word, hw]
  have huint : ∀ j, s'.uint j = s.uint j := fun j => by rw [State.uint, State.uint, hword]
  have hslot : ∀ j, s'.slot j = s.slot j := fun j => by simp only [State.slot, hword]
  cases i with
  | nop => exact comp s.draws _ rfl (by rw [hn]; rfl)
  | feAdd rd ra rb => exact comp s.draws _ rfl (by rw [hn, ← huint, ← huint]; rfl)
  | feSub rd ra rb => exact comp s.draws _ rfl (by rw [hn, ← huint, ← huint]; rfl)
  | feMul rd ra rb => exact comp s.draws _ rfl (by rw [hn, ← huint, ← huint]; rfl)
  | feSqr rd ra => exact comp s.draws _ rfl (by rw [hn, ← huint]; rfl)
  | feInv rd ra => exact comp s.draws _ rfl (by rw [hn, ← huint]; rfl)
  | fePow rd ra rb => exact comp s.draws _ rfl (by rw [hn, ← huint, ← huint]; rfl)
  | feCsel rd ra rb rc => exact comp s.draws _ rfl (by rw [hn, ← hword, ← hword, ← hword]; rfl)
  | scMuladd rd ra rb rc => exact comp s.draws _ rfl (by rw [hn, ← huint, ← huint, ← huint]; rfl)
  | scClamp rd ra => exact comp s.draws _ rfl (by rw [hn, ← hword]; rfl)
  | scRed512 rd ra =>
    by_cases ha : (pairAligned ra) = true
    · exact comp s.draws _ (if_pos ha) (by rw [hn, ← show s'.pair ra = s.pair ra by simp only [State.pair, huint]]; exact if_pos ha)
    · exact err _ (if_neg ha) (if_neg ha)
  | ptAdd rd ra rb =>
    by_cases ha : (pointAligned rd && pointAligned ra && pointAligned rb) = true
    · exact comp s.draws _ (if_pos ha) (by rw [hn, ← hslot, ← hslot]; exact if_pos ha)
    · exact err _ (if_neg ha) (if_neg ha)
  | ptDbl rd ra =>
    by_cases ha : (pointAligned rd && pointAligned ra) = true
    · exact comp s.draws _ (if_pos ha) (by rw [hn, ← hslot]; exact if_pos ha)
    · exact err _ (if_neg ha) (if_neg ha)
  | ptSmul rd ra rb =>
    by_cases ha : (pointAligned rd && pointAligned ra) = true
    · by_cases hv : validPoint (extOf (s.slot ra)) = true
      · exact comp s.draws _ ((if_pos ha).trans (if_pos hv)) (by
          rw [hn, ← hslot, ← huint]
          rw [← hslot] at hv
          exact (if_pos ha).trans (if_pos hv))
      · exact comp (s.draws + 1) _ ((if_pos ha).trans (if_neg hv)) (by
          rw [hn, ← hslot, ← hword]
          rw [← hslot] at hv
          exact (if_pos ha).trans (if_neg hv))
    · exact err _ (if_neg ha) (if_neg ha)
  | ptSmulb rd ra =>
    by_cases ha : (pointAligned rd) = true
    · exact comp s.draws _ (if_pos ha) (by rw [hn, ← huint]; exact if_pos ha)
    · exact err _ (if_neg ha) (if_neg ha)
  | ptEnc rd ra =>
    by_cases ha : (pointAligned ra) = true
    · exact comp s.draws _ (if_pos ha) (by rw [hn, ← hslot]; exact if_pos ha)
    · exact err _ (if_neg ha) (if_neg ha)
  | ptDec rd ra =>
    by_cases ha : (pointAligned rd) = true
    · have h1 := execPtDec_of_aligned rd ra s ha
      have h2 := execPtDec_of_aligned rd ra s' ha
      rw [hword, ← hd] at h2
      cases hq : decodePoint s.drso (s.word ra) with
      | none =>
        rw [hq] at h1 h2
        exact err _ h1 h2
      | some q =>
        rw [hq] at h1 h2
        exact comp s.draws _ h1 (by rw [h2, hn])
    · exact err _ (if_neg ha) (if_neg ha)

theorem releaseReset_atReset (s : State) : AtReset (releaseReset s) where
  w i := by simp only [State.word, releaseReset_w, Vector.getElem_replicate]
  busy := rfl
  done := rfl
  cmdovr := rfl
  accerr := rfl
  ie := rfl
  err := rfl
  lastcmd := rfl

theorem hardReset_atReset (s : State) : AtReset (hardReset s) where
  w i := by simp only [State.word, hardReset_w, Vector.getElem_replicate]
  busy := rfl
  done := rfl
  cmdovr := rfl
  accerr := rfl
  ie := rfl
  err := rfl
  lastcmd := rfl

theorem atReset_of_resp {s : State} (h : AtReset s) (r : Option Response) : AtReset { s with resp := r } :=
  ⟨h.w, h.busy, h.done, h.cmdovr, h.accerr, h.ie, h.err, h.lastcmd⟩

/-- Everything one step can do to the block, by cause: the agenda and the answer aside, each constructor says what
changed. -/
inductive StepEffect (s t : State) : Prop where
  | reset (cause : ResetsNext s) (state : AtReset t)
  | nothing (a : List Event) (r : Option Response) (pin : s.rstN = true) (eq : t = { s with agenda := a, resp := r })
  | completion (w : Vector Word 32) (n : Nat) (c : BitVec 4) (a : List Event) (pin : s.rstN = true)
      (turn : EngineNext s) (busy : s.busy = true) (code : c.toNat ≤ 4)
      (eq : t = finish { s with agenda := a, w := w, draws := n } c)
  | refused (a : List Event) (r : Option Response) (pin : s.rstN = true) (busy : s.busy = true)
      (eq : t = { refuseOperandAccess s with agenda := a, resp := r })
  | enable (v : BusWord) (a : List Event) (r : Option Response) (pin : s.rstN = true) (cause : WritesNext s 0x004#12 v)
      (eq : t = { s with ie := v.getLsbD 0, agenda := a, resp := r })
  | clear (v : BusWord) (a : List Event) (r : Option Response) (pin : s.rstN = true) (cause : WritesNext s 0x008#12 v)
      (eq : t = { writeStatus s v with agenda := a, resp := r })
  | accepted (v : BusWord) (a : List Event) (r : Option Response) (pin : s.rstN = true)
      (cause : WritesNext s 0x00C#12 v) (busy : s.busy = false) (eq : t = { accept s v with agenda := a, resp := r })
  | dropped (v : BusWord) (a : List Event) (r : Option Response) (pin : s.rstN = true)
      (cause : WritesNext s 0x00C#12 v) (busy : s.busy = true) (eq : t = { dropCommand s with agenda := a, resp := r })
  | operand (n : Idx) (j : Fin 8) (v : BusWord) (a : List Event) (r : Option Response) (pin : s.rstN = true)
      (cause : WritesNext s (laneOffset n j) v) (busy : s.busy = false)
      (eq : t = { s with w := setWord s.w n (setLane (s.word n) j v), agenda := a, resp := r })

theorem step_effect {s t : State} (h : step s = .next t) : StepEffect s t := by
  rcases Bool.eq_false_or_eq_true s.rstN with hr | hr
  · rcases step_cases s hr with ⟨he, h'⟩ | ⟨tr, rest, ha, h'⟩ | ⟨rest, ha, h'⟩ | ⟨rest, ha, h'⟩ <;> rw [h] at h'
    · rcases engineTurn_eq { s with agenda := s.agenda.tail } with ⟨-, e⟩ | ⟨hb, w, n, c, hc, e⟩ <;> rw [e] at h' <;>
        obtain rfl := Host.Outcome.next.inj h'
      · exact .nothing _ _ hr rfl
      · exact .completion w n c _ hr he hb hc rfl
    · obtain rfl := Host.Outcome.next.inj h'
      obtain ⟨s', r, e, hs⟩ := busAccess_cases { s with agenda := rest } tr
      rw [e]
      rcases hs with rfl | ⟨hb, rfl⟩ | ⟨h1, h2, ⟨h3, rfl⟩ | ⟨h3, rfl⟩ | ⟨h3, rfl⟩ | ⟨n, j, h3, hb, rfl⟩⟩
      · exact .nothing _ _ hr rfl
      · exact .refused _ _ hr hb rfl
      · cases hv : tr.wdata.getLsbD 1
        · refine .enable tr.wdata rest (some r) hr ⟨tr, rest, ha, h1, h2, h3, rfl⟩ ?_
          simp only [writeCtrl, hv]
          rfl
        · refine .reset (Or.inr (Or.inr ⟨tr, rest, ha, h1, h2, h3, hv⟩)) ?_
          rw [writeCtrl, if_pos hv]
          exact atReset_of_resp (applyReset_atReset _) _
      · exact .clear tr.wdata rest (some r) hr ⟨tr, rest, ha, h1, h2, h3, rfl⟩ rfl
      · rcases Bool.eq_false_or_eq_true s.busy with hb | hb
        · refine .dropped tr.wdata rest (some r) hr ⟨tr, rest, ha, h1, h2, h3, rfl⟩ hb ?_
          simp [writeCommand, hb]
        · refine .accepted tr.wdata rest (some r) hr ⟨tr, rest, ha, h1, h2, h3, rfl⟩ hb ?_
          simp [writeCommand, hb]
      · exact .operand n j tr.wdata rest (some r) hr ⟨tr, rest, ha, h1, h2, h3, rfl⟩ hb rfl
    · obtain rfl := Host.Outcome.next.inj h'
      exact .nothing _ _ hr rfl
    · obtain rfl := Host.Outcome.next.inj h'
      exact .reset (Or.inr (Or.inl ⟨rest, ha⟩)) (hardReset_atReset _)
  · rcases step_of_reset s hr with h' | h' <;> rw [h] at h' <;> obtain rfl := Host.Outcome.next.inj h'
    · exact .reset (Or.inl hr) (applyReset_atReset _)
    · exact .reset (Or.inl hr) (releaseReset_atReset _)

end Sys2Proof.Laws
end

