-- ==== Sys2Proof/Machine/Assembler.lean ====
section
/-! DEFINITION. The assembler syntax of R90 on a line of characters: the mnemonic, then the used operands in the order
RD, RA, RB, RC, separated by commas; `;` starts a comment. What the rule leaves open of the text is log 15. -/

namespace Sys2Proof.Machine

/-- An operand as it is spelt (R90). -/
inductive Operand where
  | w (n : Fin 32)
  | P (n : Fin 8)
  | D (n : Fin 16)
deriving DecidableEq, Repr

/-- A word operand is spelt `w<n>` (R90). -/
def wordOperand : Operand → Option Idx
  | .w n => some n
  | .P _ => none
  | .D _ => none

/-- A point operand: `P<n>` is `w<4n>`; a misaligned `w` spelling is legal (R90). -/
def pointOperand : Operand → Option Idx
  | .w n => some n
  | .P n => some ⟨4 * n.val, by omega⟩
  | .D _ => none

/-- A pair operand: `D<n>` is `w<2n>` (R90). -/
def pairOperand : Operand → Option Idx
  | .w n => some n
  | .P _ => none
  | .D n => some ⟨2 * n.val, by omega⟩

/-- The operands of PT_MOV are spelt `P<n>` (R91). -/
def slotOperand : Operand → Option Idx
  | .w _ => none
  | .P n => some ⟨4 * n.val, by omega⟩
  | .D _ => none

def isBlank (c : Char) : Bool := c == ' ' || c == '\t'

def digitValue (c : Char) : Option Nat :=
  let n := c.toNat
  if 48 ≤ n ∧ n ≤ 57 then some (n - 48)
  else if 97 ≤ n ∧ n ≤ 102 then some (n - 87)
  else if 65 ≤ n ∧ n ≤ 70 then some (n - 55)
  else none

/-- The digits of a number in base `b`, after those read into `acc`. DESIGN CHOICE (log 15): R6's optional digit separator
`_`, of which R90 says nothing, is not read in the text's numbers, so a number that holds it is refused. -/
def readDigits (b : Nat) : Nat → List Char → Option Nat
  | acc, [] => some acc
  | acc, c :: cs =>
    match digitValue c with
    | some k => if k < b then readDigits b (acc * b + k) cs else none
    | none => none

/-- A number: decimal, or `0x` and hex digits (R90). -/
def readNumber : List Char → Option Nat
  | [] => none
  | '0' :: 'x' :: c :: cs => readDigits 16 0 (c :: cs)
  | cs => readDigits 10 0 cs

/-- `w0` to `w31`, `P0` to `P7`, `D0` to `D15` (R90). -/
def readOperand : List Char → Option Operand
  | [] => none
  | c :: cs =>
    match readNumber cs with
    | none => none
    | some n =>
      if c = 'w' then if h : n < 32 then some (.w ⟨n, h⟩) else none
      else if c = 'P' then if h : n < 8 then some (.P ⟨n, h⟩) else none
      else if c = 'D' then if h : n < 16 then some (.D ⟨n, h⟩) else none
      else none

/-- The text before a `;` (R90). -/
def dropComment (cs : List Char) : List Char := cs.takeWhile (· ≠ ';')

def trimBlanks (cs : List Char) : List Char := ((cs.dropWhile isBlank).reverse.dropWhile isBlank).reverse

/-- The pieces between commas. -/
def splitCommas : List Char → List (List Char)
  | [] => [[]]
  | c :: cs =>
    match splitCommas cs with
    | [] => [[c]]
    | piece :: rest => if c = ',' then [] :: piece :: rest else (c :: piece) :: rest

/-- All of the operands, or none if one is malformed. -/
def readOperands : List (List Char) → Option (List Operand)
  | [] => some []
  | cs :: rest =>
    match readOperand (trimBlanks cs), readOperands rest with
    | some o, some os => some (o :: os)
    | _, _ => none

/-- A command of two operands of the given kinds. -/
def take2 (k1 k2 : Operand → Option Idx) (f : Idx → Idx → List Instr) : List Operand → Option (List Instr)
  | [a, b] =>
    match k1 a, k2 b with
    | some x, some y => some (f x y)
    | _, _ => none
  | _ => none

/-- A command of three operands of the given kinds. -/
def take3 (k1 k2 k3 : Operand → Option Idx) (f : Idx → Idx → Idx → List Instr) : List Operand → Option (List Instr)
  | [a, b, c] =>
    match k1 a, k2 b, k3 c with
    | some x, some y, some z => some (f x y z)
    | _, _, _ => none
  | _ => none

/-- A command of four word operands. -/
def take4 (f : Idx → Idx → Idx → Idx → List Instr) : List Operand → Option (List Instr)
  | [a, b, c, e] =>
    match wordOperand a, wordOperand b, wordOperand c, wordOperand e with
    | some x, some y, some z, some u => some (f x y z u)
    | _, _, _, _ => none
  | _ => none

/-- A mnemonic of R85 or a pseudo-instruction of R91, with its operands (kinds of R85). -/
def assembleCommand (m : List Char) (ops : List Operand) : Option (List Instr) :=
  if m = "NOP".toList then (if ops = [] then some [.nop] else none)
  else if m = "FE_ADD".toList then take3 wordOperand wordOperand wordOperand (fun d a b => [.feAdd d a b]) ops
  else if m = "FE_SUB".toList then take3 wordOperand wordOperand wordOperand (fun d a b => [.feSub d a b]) ops
  else if m = "FE_MUL".toList then take3 wordOperand wordOperand wordOperand (fun d a b => [.feMul d a b]) ops
  else if m = "FE_SQR".toList then take2 wordOperand wordOperand (fun d a => [.feSqr d a]) ops
  else if m = "FE_INV".toList then take2 wordOperand wordOperand (fun d a => [.feInv d a]) ops
  else if m = "FE_POW".toList then take3 wordOperand wordOperand wordOperand (fun d a b => [.fePow d a b]) ops
  else if m = "FE_CSEL".toList then take4 (fun d a b c => [.feCsel d a b c]) ops
  else if m = "SC_RED512".toList then take2 wordOperand pairOperand (fun d a => [.scRed512 d a]) ops
  else if m = "SC_MULADD".toList then take4 (fun d a b c => [.scMuladd d a b c]) ops
  else if m = "SC_CLAMP".toList then take2 wordOperand wordOperand (fun d a => [.scClamp d a]) ops
  else if m = "PT_ADD".toList then take3 pointOperand pointOperand pointOperand (fun d a b => [.ptAdd d a b]) ops
  else if m = "PT_DBL".toList then take2 pointOperand pointOperand (fun d a => [.ptDbl d a]) ops
  else if m = "PT_SMUL".toList then take3 pointOperand pointOperand wordOperand (fun d a b => [.ptSmul d a b]) ops
  else if m = "PT_SMULB".toList then take2 pointOperand wordOperand (fun d a => [.ptSmulb d a]) ops
  else if m = "PT_ENC".toList then take2 wordOperand pointOperand (fun d a => [.ptEnc d a]) ops
  else if m = "PT_DEC".toList then take2 pointOperand wordOperand (fun d a => [.ptDec d a]) ops
  else if m = "MOV".toList then take2 wordOperand wordOperand pseudoMov ops
  else if m = "PT_MOV".toList then take2 slotOperand slotOperand pseudoPtMov ops
  else if m = "FE_RED".toList then take3 wordOperand wordOperand wordOperand pseudoFeRed ops
  else none

/-- One line (R90): its commands, none for a line that is no command, and an empty list for a blank line. -/
def assembleLine (line : List Char) : Option (List Instr) :=
  let text := trimBlanks (dropComment line)
  let m := text.takeWhile (fun c => !isBlank c)
  let rest := trimBlanks (text.dropWhile (fun c => !isBlank c))
  if m = [] then some []
  else if rest = [] then assembleCommand m []
  else
    match readOperands (splitCommas rest) with
    | some ops => assembleCommand m ops
    | none => none

end Sys2Proof.Machine
end

