-- ==== Sys2Proof/Tests/Slice0.lean ====
section
/-! SUPPORT. Tests: every expected value is copied from the spec (the vectors V-... of 95_test_vectors.md, the worked
encodings of R93, or a rule's corner cases). After them the witnesses: for each statement with hypotheses, a state and
operands that meet them. -/

namespace Sys2Proof.Tests

open Sys2Proof.Machine

/-! ### Helpers -/

/-- The state after reset with the given operand words. -/
def testState (ws : List (Idx × Word)) : State := { State.reset with w := applyWrites State.reset.w ws }

/-- ERR and one word after a command on the given operand words. -/
def wordAfter (i : Instr) (ws : List (Idx × Word)) (rd : Idx) : Option (BitVec 4 × Word) :=
  match exec i (testState ws) with
  | .next t => some (t.err, t.word rd)
  | .fault _ => none
  | .refused _ => none

/-- ERR and one slot after a command on the given operand words. -/
def slotAfter (i : Instr) (ws : List (Idx × Word)) (rd : Idx) : Option (BitVec 4 × PointWords) :=
  match exec i (testState ws) with
  | .next t => some (t.err, t.slot rd)
  | .fault _ => none
  | .refused _ => none

/-- The state after the steps of an agenda. -/
def play (s : State) (events : List Event) : Option State :=
  match Sys2Proof.core.run events.length { s with agenda := events } with
  | .next t => some t
  | .fault _ => none
  | .refused _ => none

/-- The answer to one read. -/
def readAt (s : State) (off : BitVec 12) : Option Response := (play s [hostRead off]).bind State.resp

/-- STATUS after the events. -/
def statusAfter (s : State) (events : List Event) : Option BusWord := (play s events).map State.statusWord

/-! ### WellFormed: an ill-formed term for each check of R88, and a well-formed one -/

theorem test_ill_formed_sc_red512_ra : Instr.wellFormed (.scRed512 4 1) = false := by
  decide

theorem test_ill_formed_pt_add_rd : Instr.wellFormed (.ptAdd 1 0 4) = false := by
  decide

theorem test_ill_formed_pt_add_ra : Instr.wellFormed (.ptAdd 0 2 4) = false := by
  decide

theorem test_ill_formed_pt_add_rb : Instr.wellFormed (.ptAdd 0 4 7) = false := by
  decide

theorem test_ill_formed_pt_dbl_rd : Instr.wellFormed (.ptDbl 6 0) = false := by
  decide

theorem test_ill_formed_pt_dbl_ra : Instr.wellFormed (.ptDbl 4 1) = false := by
  decide

theorem test_ill_formed_pt_smul_rd : Instr.wellFormed (.ptSmul 1 0 8) = false := by
  decide

theorem test_ill_formed_pt_smul_ra : Instr.wellFormed (.ptSmul 0 2 8) = false := by
  decide

theorem test_ill_formed_pt_smulb_rd : Instr.wellFormed (.ptSmulb 2 8) = false := by
  decide

theorem test_ill_formed_pt_enc_ra : Instr.wellFormed (.ptEnc 9 3) = false := by
  decide

theorem test_ill_formed_pt_dec_rd : Instr.wellFormed (.ptDec 6 16) = false := by
  decide

theorem test_well_formed : Instr.wellFormed (.scRed512 31 30) = true ∧ Instr.wellFormed (.ptAdd 28 0 4) = true ∧ Instr.wellFormed (.ptDbl 28 24) = true ∧ Instr.wellFormed (.ptSmul 0 4 3) = true ∧ Instr.wellFormed (.ptSmulb 28 31) = true ∧ Instr.wellFormed (.ptEnc 31 28) = true ∧ Instr.wellFormed (.ptDec 28 31) = true ∧ Instr.wellFormed (.feCsel 31 30 29 27) = true := by
  decide

/-! ### Decoding: a word written out from the spec for every constructor (R81, R85, R93; the words of
95_test_vectors.md) -/

/-- R93 -/
theorem test_decode_nop : decode 0x00000000#32 = .instr (.nop) := by
  decide

/-- Program 5, step 18 -/
theorem test_decode_fe_add : decode 0x00040210#32 = .instr (.feAdd 2 0 1) := by
  decide

/-- Program 1 -/
theorem test_decode_fe_sub : decode 0x00190A11#32 = .instr (.feSub 10 8 6) := by
  decide

/-- R93 -/
theorem test_decode_fe_mul : decode 0x00040212#32 = .instr (.feMul 2 0 1) := by
  decide

/-- Program 1 -/
theorem test_decode_fe_sqr : decode 0x0000C613#32 = .instr (.feSqr 6 6) := by
  decide

/-- Program 1 -/
theorem test_decode_fe_inv : decode 0x00002214#32 = .instr (.feInv 2 1) := by
  decide

/-- Program 1 -/
theorem test_decode_fe_pow : decode 0x001D2815#32 = .instr (.fePow 8 9 7) := by
  decide

/-- V-ENC-3 -/
theorem test_decode_fe_csel : decode 0x02840B16#32 = .instr (.feCsel 11 0 1 5) := by
  decide

/-- V-ENC-5 -/
theorem test_decode_sc_red512 : decode 0x00010A20#32 = .instr (.scRed512 10 8) := by
  decide

/-- V-ENC-4 -/
theorem test_decode_sc_muladd : decode 0x050A1121#32 = .instr (.scMuladd 17 16 2 10) := by
  decide

/-- Program 4, step 2 -/
theorem test_decode_sc_clamp : decode 0x00000222#32 = .instr (.scClamp 2 0) := by
  decide

/-- Program 4, step 18 -/
theorem test_decode_pt_add : decode 0x00731C30#32 = .instr (.ptAdd 28 24 28) := by
  decide

/-- V-ENC-7: misaligned, and still a command -/
theorem test_decode_pt_dbl : decode 0x00002431#32 = .instr (.ptDbl 4 1) := by
  decide

/-- V-ENC-6 -/
theorem test_decode_pt_smul : decode 0x004A9C32#32 = .instr (.ptSmul 28 20 18) := by
  decide

/-- Program 2 -/
theorem test_decode_pt_smulb : decode 0x00022C33#32 = .instr (.ptSmulb 12 17) := by
  decide

/-- R93 -/
theorem test_decode_pt_enc : decode 0x00011134#32 = .instr (.ptEnc 17 8) := by
  decide

/-- R93 -/
theorem test_decode_pt_dec : decode 0x00020035#32 = .instr (.ptDec 0 16) := by
  decide

/-- V-ENC-8, V-CTL-6 -/
theorem test_decode_reserved_field : decode 0x10040210#32 = .reservedField ∧ decode 0x800000FF#32 = .reservedField := by
  decide

/-- V-ENC-9, V-CTL-7, R86 -/
theorem test_decode_illegal_opcode : decode 0x00000017#32 = .illegalOpcode ∧ decode 0x00000136#32 = .illegalOpcode ∧
    decode 0x00000001#32 = .illegalOpcode ∧ decode 0x000000FF#32 = .illegalOpcode := by
  decide

/-- R87: RB and RC of FE_SQR, and every field of NOP, are ignored. -/
theorem test_unused_fields : decode 0x0F840213#32 = .instr (.feSqr 2 0) ∧ decode 0x0FFFFF00#32 = .instr .nop := by
  decide

/-- The host's question, on a word of Program 4. -/
theorem test_decode_table_word : decodeTableWord 32 0x00731C30 = some (.ptAdd 28 24 28) ∧ decodeTableWord 32 0x10000000 = none := by
  decide

/-! ### Commands, one step each -/

/-- V-FE-2 -/
theorem test_fe_add_reduces_both : wordAfter (.feAdd 2 0 1) [(0, BitVec.ofNat 256 (2 ^ 256 - 1)), (1, BitVec.ofNat 256 (2 ^ 256 - 1))] 2 = some (0, BitVec.ofNat 256 (74)) := by
  decide +kernel

/-- V-FE-4 -/
theorem test_fe_add_overlap : wordAfter (.feAdd 0 0 0) [(0, BitVec.ofNat 256 (p - 1))] 0 = some (0, BitVec.ofNat 256 (p - 2)) := by
  decide +kernel

/-- V-FE-5 -/
theorem test_fe_sub_negative : wordAfter (.feSub 2 0 1) [(1, BitVec.ofNat 256 (1))] 2 = some (0, BitVec.ofNat 256 (p - 1)) := by
  decide +kernel

/-- V-FE-7 -/
theorem test_fe_sub_order : wordAfter (.feSub 1 1 0) [(0, BitVec.ofNat 256 (9)), (1, BitVec.ofNat 256 (5))] 1 = some (0, BitVec.ofNat 256 (p - 4)) := by
  decide +kernel

/-- V-FE-9 -/
theorem test_fe_mul_two_pow_255 : wordAfter (.feMul 2 0 1) [(0, BitVec.ofNat 256 (2 ^ 255)), (1, BitVec.ofNat 256 (1))] 2 = some (0, BitVec.ofNat 256 (19)) := by
  decide +kernel

/-- V-FE-10 -/
theorem test_fe_mul_minus_one : wordAfter (.feMul 2 0 1) [(0, BitVec.ofNat 256 (p - 1)), (1, BitVec.ofNat 256 (p - 1))] 2 = some (0, BitVec.ofNat 256 (1)) := by
  decide +kernel

/-- V-FE-12 -/
theorem test_fe_sqr_two_pow_128 : wordAfter (.feSqr 2 0) [(0, BitVec.ofNat 256 (2 ^ 128))] 2 = some (0, BitVec.ofNat 256 (38)) := by
  decide +kernel

/-- V-FE-13 -/
theorem test_fe_sqr_all_ones : wordAfter (.feSqr 0 0) [(0, BitVec.ofNat 256 (2 ^ 256 - 1))] 0 = some (0, BitVec.ofNat 256 (1369)) := by
  decide +kernel

/-- V-FE-14 -/
theorem test_fe_inv_two : wordAfter (.feInv 2 0) [(0, BitVec.ofNat 256 (2))] 2 = some (0, BitVec.ofNat 256 ((p + 1) / 2)) := by
  decide +kernel

/-- V-FE-16 -/
theorem test_fe_inv_of_p : wordAfter (.feInv 2 0) [(0, BitVec.ofNat 256 (p)), (2, BitVec.ofNat 256 (5))] 2 = some (0, BitVec.ofNat 256 (0)) := by
  decide +kernel

/-- V-FE-21 -/
theorem test_fe_pow_all_bits : wordAfter (.fePow 2 0 1) [(0, BitVec.ofNat 256 (2)), (1, BitVec.ofNat 256 (2 ^ 256 - 1))] 2 = some (0, BitVec.ofNat 256 (2 ^ 39)) := by
  decide +kernel

/-- V-FE-19 -/
theorem test_fe_pow_zero_zero : wordAfter (.fePow 2 0 1) [] 2 = some (0, BitVec.ofNat 256 (1)) := by
  decide +kernel

/-- V-FE-25 -/
theorem test_fe_csel_bit_0_only : wordAfter (.feCsel 3 0 1 2) [(0, BitVec.ofNat 256 (7)), (1, BitVec.ofNat 256 (9)), (2, BitVec.ofNat 256 (2))] 3 = some (0, BitVec.ofNat 256 (7)) := by
  decide +kernel

/-- V-FE-26, V-FE-24 -/
theorem test_fe_csel_no_reduction : wordAfter (.feCsel 3 0 1 2) [(0, BitVec.ofNat 256 (p + 3)), (1, 9#256)] 3 = some (0, BitVec.ofNat 256 (p + 3)) ∧
    wordAfter (.feCsel 3 0 1 2) [(0, 7#256), (1, 9#256), (2, 1#256)] 3 = some (0, 9#256) := by
  decide +kernel

/-- V-SC-7 -/
theorem test_sc_red512_all_ones : wordAfter (.scRed512 4 2) [(2, BitVec.ofNat 256 (2 ^ 256 - 1)), (3, BitVec.ofNat 256 (2 ^ 256 - 1))] 4 = some (0, 0x0399411b7c309a3dceec73d217f5be65d00e1ba768859347a40611e3449c0f00#256) := by
  decide +kernel

/-- V-SC-8 -/
theorem test_sc_red512_odd : wordAfter (.scRed512 4 1) [(4, 6#256)] 4 = some (2, 6#256) := by
  decide +kernel

/-- V-SC-11 -/
theorem test_sc_muladd_all_ones : wordAfter (.scMuladd 3 0 1 2) [(0, BitVec.ofNat 256 (2 ^ 256 - 1)), (1, BitVec.ofNat 256 (2 ^ 256 - 1)), (2, BitVec.ofNat 256 (2 ^ 256 - 1))] 3 = some (0, 0x0399411b7c309a3dceec73d217f5be671dfdb99197ff60ad252c438913f94dd1#256) := by
  decide +kernel

/-- V-SC-13 -/
theorem test_sc_muladd_order : wordAfter (.scMuladd 3 0 1 2) [(0, BitVec.ofNat 256 (L)), (1, BitVec.ofNat 256 (5)), (2, BitVec.ofNat 256 (7))] 3 = some (0, BitVec.ofNat 256 (7)) := by
  decide +kernel

/-- V-SC-18 -/
theorem test_sc_clamp_seed : wordAfter (.scClamp 2 0) [(0, 0x0fe94d9006f020a5a3c080d96827fffd3c010ac0f12e7a42cb33284f86837c35#256)] 2 = some (0, 0x4fe94d9006f020a5a3c080d96827fffd3c010ac0f12e7a42cb33284f86837c30#256) := by
  decide +kernel

/-- V-SC-17 -/
theorem test_sc_clamp_forced_bits : wordAfter (.scClamp 0 0) [(0, BitVec.ofNat 256 (2 ^ 255 + 7))] 0 = some (0, BitVec.ofNat 256 (2 ^ 254)) := by
  decide +kernel

/-- V-PT-1 -/
theorem test_pt_add_identity : slotAfter (.ptAdd 8 0 4)
    [(0, 0#256), (1, 1#256), (2, 1#256), (3, 0#256),
      (4, 0x216936d3cd6e53fec0a4e231fdd6dc5c692cc7609525a7b2c9562d608f25d51a#256), (5, 0x6666666666666666666666666666666666666666666666666666666666666658#256), (6, 1#256), (7, 0x67875f0fd78b766566ea4e8e64abe37d20f09f80775152f56dde8ab3a5b7dda3#256)] 8 =
    some (0, ⟨0x05a4db4f35b94ffb029388c7f75b7171a4b31d8254969ecb2558b5823c97547b#256, 0x1999999999999999999999999999999999999999999999999999999999999999#256, 0x0000000000000000000000000000000000000000000000000000000000000004#256, 0x1e1d7c3f5e2dd9959ba93a3992af8df483c27e01dd454bd5b77a2ace96df76c5#256⟩) := by
  decide +kernel

/-- V-PT-4, in place -/
theorem test_pt_add_inverse : slotAfter (.ptAdd 0 0 4)
    [(0, 0x216936d3cd6e53fec0a4e231fdd6dc5c692cc7609525a7b2c9562d608f25d51a#256), (1, 0x6666666666666666666666666666666666666666666666666666666666666658#256), (2, 1#256), (3, 0x67875f0fd78b766566ea4e8e64abe37d20f09f80775152f56dde8ab3a5b7dda3#256),
      (4, 0x5e96c92c3291ac013f5b1dce022923a396d3389f6ada584d36a9d29f70da2ad3#256), (5, 0x6666666666666666666666666666666666666666666666666666666666666658#256), (6, 1#256), (7, 0x1878a0f02874899a9915b1719b541c82df0f607f88aead0a9221754c5a48224a#256)] 0 =
    some (0, ⟨0#256, 0x59e4ea1a52a20ea2fd9cb81712f675b450b27bff31b598ba722d5b0bf61c8608#256, 0x59e4ea1a52a20ea2fd9cb81712f675b450b27bff31b598ba722d5b0bf61c8608#256, 0#256⟩) := by
  decide +kernel

/-- V-PT-3 -/
theorem test_pt_dbl_base : slotAfter (.ptDbl 4 0)
    [(0, 0x216936d3cd6e53fec0a4e231fdd6dc5c692cc7609525a7b2c9562d608f25d51a#256), (1, 0x6666666666666666666666666666666666666666666666666666666666666658#256), (2, 1#256), (3, 0x67875f0fd78b766566ea4e8e64abe37d20f09f80775152f56dde8ab3a5b7dda3#256)] 4 =
    some (0, ⟨0x31241ddb9a7c254aea224b87b7b0f909886ec1ddfa71625b7aba864c18300a57#256, 0x3324984c6cc933db69b782fc3ac951f60a47aa662bbe321c924b2cd95e2d7fd7#256, 0x6986c5796b577c574098d1fa3b426292ebd36100339299d16374a93d0278de6b#256, 0x18247dc974b59c9540e4564048a87e0fa362dabfedf0bb190eb34e071b4d4999#256⟩) := by
  decide +kernel

/-- V-PT-5, with a wrong T, which is not read (R171). -/
theorem test_pt_dbl_identity : slotAfter (.ptDbl 0 0) [(1, 1#256), (2, 1#256), (3, 5#256)] 0 =
    some (0, ⟨0#256, BitVec.ofNat 256 (p - 1), BitVec.ofNat 256 (p - 1), 0#256⟩) := by
  decide +kernel

/-- V-PT-6 -/
theorem test_pt_smul_three : slotAfter (.ptSmul 4 0 8)
    [(0, 0x216936d3cd6e53fec0a4e231fdd6dc5c692cc7609525a7b2c9562d608f25d51a#256), (1, 0x6666666666666666666666666666666666666666666666666666666666666658#256),
      (2, 1#256), (3, 0x67875f0fd78b766566ea4e8e64abe37d20f09f80775152f56dde8ab3a5b7dda3#256), (8, 3#256)] 4 =
    some (0, ⟨0x67ae9c4a22928f491ff4ae743edac83a6343981981624886ac62485fd3f8e25c#256, 0x1267b1d177ee69aba126a18e60269ef79f16ec176724030402c3684878f5b4d4#256, 0x0000000000000000000000000000000000000000000000000000000000000001#256, 0x2a4d025cb1dd9510ebef3783adb915275c27358bfb16fc4acdf908fa78b3a41a#256⟩) := by
  decide +kernel

/-- V-PT-7: k = L, and k = 1 on the point of order 2 with the scalar inside the slot. -/
theorem test_pt_smul_corner_cases : slotAfter (.ptSmul 4 0 8) [(0, 0x216936d3cd6e53fec0a4e231fdd6dc5c692cc7609525a7b2c9562d608f25d51a#256), (1, 0x6666666666666666666666666666666666666666666666666666666666666658#256), (2, 1#256), (3, 0x67875f0fd78b766566ea4e8e64abe37d20f09f80775152f56dde8ab3a5b7dda3#256),
      (8, BitVec.ofNat 256 L)] 4 = some (0, ⟨0#256, 1#256, 1#256, 0#256⟩) ∧
    slotAfter (.ptSmul 4 0 2) [(1, BitVec.ofNat 256 (p - 1)), (2, 1#256)] 4 =
      some (0, ⟨0#256, BitVec.ofNat 256 (p - 1), 1#256, 0#256⟩) := by
  decide +kernel

/-- V-PT-8: the public key of RFC 8032 test 1 -/
theorem test_pt_smulb_public_key : slotAfter (.ptSmulb 4 2)
    [(2, 0x4fe94d9006f020a5a3c080d96827fffd3c010ac0f12e7a42cb33284f86837c30#256)] 4 =
    some (0, ⟨0x55d0e09a2b9d34292297e08d60d0f620c513d47253187c24b12786bd777645ce#256, 0x1a5107f7681a02af2523a6daf372e10e3a0764c9d3fe4bd5b70ab18201985ad7#256, 0x0000000000000000000000000000000000000000000000000000000000000001#256, 0x4525898585a7ae628c47e07dfaf4499e04f654805bcc7e4440e0b2ba1f701644#256⟩) := by
  decide +kernel

/-- V-PT-6, the scalar inside the slot -/
theorem test_pt_smulb_three : slotAfter (.ptSmulb 0 0)
    [(0, 3#256)] 0 =
    some (0, ⟨0x67ae9c4a22928f491ff4ae743edac83a6343981981624886ac62485fd3f8e25c#256, 0x1267b1d177ee69aba126a18e60269ef79f16ec176724030402c3684878f5b4d4#256, 0x0000000000000000000000000000000000000000000000000000000000000001#256, 0x2a4d025cb1dd9510ebef3783adb915275c27358bfb16fc4acdf908fa78b3a41a#256⟩) := by
  decide +kernel

/-- V-PT-9: norm(-B) -/
theorem test_pt_enc_sign : wordAfter (.ptEnc 17 8) [(8, 0x5e96c92c3291ac013f5b1dce022923a396d3389f6ada584d36a9d29f70da2ad3#256), (9, 0x6666666666666666666666666666666666666666666666666666666666666658#256), (10, 1#256), (11, 0x1878a0f02874899a9915b1719b541c82df0f607f88aead0a9221754c5a48224a#256)] 17 =
    some (0, 0xe666666666666666666666666666666666666666666666666666666666666658#256) := by
  decide +kernel

/-- V-PT-9: Z = 0 -/
theorem test_pt_enc_invalid : wordAfter (.ptEnc 17 8) [(8, 5#256), (9, 6#256), (11, 7#256), (17, 3#256)] 17 = some (0, 0#256) := by
  decide +kernel

/-- V-PT-10: encode(-B) -/
theorem test_pt_dec_sign : slotAfter (.ptDec 0 16)
    [(16, 0xe666666666666666666666666666666666666666666666666666666666666658#256)] 0 =
    some (0, ⟨0x5e96c92c3291ac013f5b1dce022923a396d3389f6ada584d36a9d29f70da2ad3#256, 0x6666666666666666666666666666666666666666666666666666666666666658#256, 1#256, 0x1878a0f02874899a9915b1719b541c82df0f607f88aead0a9221754c5a48224a#256⟩) := by
  decide +kernel

/-- PT_DEC of one word under both policies of DEC_REJECT_SMALL_ORDER, into a slot that holds 9, 9, 9, 9. -/
def decAfter (drso : Bool) (w : Word) : Option (BitVec 4 × PointWords) :=
  match exec (.ptDec 0 16) { testState [(0, 9#256), (1, 9#256), (2, 9#256), (3, 9#256), (16, w)] with drso := drso } with
  | .next t => some (t.err, t.slot 0)
  | .fault _ => none
  | .refused _ => none

/-- V-PT-11 -/
theorem test_pt_dec_table : 
    decAfter false (BitVec.ofNat 256 (p)) = some (3, ⟨9#256, 9#256, 9#256, 9#256⟩) ∧
    decAfter true (BitVec.ofNat 256 (p)) = some (3, ⟨9#256, 9#256, 9#256, 9#256⟩) ∧
    decAfter false (BitVec.ofNat 256 (p + 2 ^ 255)) = some (3, ⟨9#256, 9#256, 9#256, 9#256⟩) ∧
    decAfter true (BitVec.ofNat 256 (p + 2 ^ 255)) = some (3, ⟨9#256, 9#256, 9#256, 9#256⟩) ∧
    decAfter false (BitVec.ofNat 256 (1 + 2 ^ 255)) = some (3, ⟨9#256, 9#256, 9#256, 9#256⟩) ∧
    decAfter true (BitVec.ofNat 256 (1 + 2 ^ 255)) = some (3, ⟨9#256, 9#256, 9#256, 9#256⟩) ∧
    decAfter false (BitVec.ofNat 256 (2)) = some (3, ⟨9#256, 9#256, 9#256, 9#256⟩) ∧
    decAfter true (BitVec.ofNat 256 (2)) = some (3, ⟨9#256, 9#256, 9#256, 9#256⟩) ∧
    decAfter true (BitVec.ofNat 256 (1)) = some (3, ⟨9#256, 9#256, 9#256, 9#256⟩) ∧
    decAfter true (BitVec.ofNat 256 (p - 1)) = some (3, ⟨9#256, 9#256, 9#256, 9#256⟩) ∧
    decAfter true (BitVec.ofNat 256 (0)) = some (3, ⟨9#256, 9#256, 9#256, 9#256⟩) ∧
    decAfter false 1#256 = some (0, ⟨0#256, 1#256, 1#256, 0#256⟩) ∧
    decAfter false (BitVec.ofNat 256 (p - 1)) = some (0, ⟨0#256, BitVec.ofNat 256 (p - 1), 1#256, 0#256⟩) ∧
    decAfter false 0#256 = some (0, ⟨0x2b8324804fc1df0b2b4d00993dfbd7a72f431806ad2fe478c4ee1b274a0ea0b0#256, 0#256, 1#256, 0#256⟩) ∧
    decAfter true 0x6666666666666666666666666666666666666666666666666666666666666658#256 = some (0, ⟨0x216936d3cd6e53fec0a4e231fdd6dc5c692cc7609525a7b2c9562d608f25d51a#256, 0x6666666666666666666666666666666666666666666666666666666666666658#256, 1#256, 0x67875f0fd78b766566ea4e8e64abe37d20f09f80775152f56dde8ab3a5b7dda3#256⟩) := by
  decide +kernel

/-! ### Errors, status, interrupt and reset -/

/-- R107 -/
theorem test_nop_from_reset : statusAfter State.reset (hostRun .nop 0) = some 0x00000002#32 ∧
    (play State.reset (hostRun .nop 0)).map State.w = some State.reset.w := by
  decide +kernel

/-- V-CTL-4 to V-CTL-8 -/
theorem test_error_codes : statusAfter State.reset (hostIssue 0x00000017#32 ++ [.engine]) = some 0x00000012#32 ∧
    statusAfter State.reset (hostIssue 0x10040210#32 ++ [.engine]) = some 0x00000042#32 ∧
    statusAfter State.reset (hostIssue 0x800000FF#32 ++ [.engine]) = some 0x00000042#32 ∧
    statusAfter State.reset (hostIssue 0x00000136#32 ++ [.engine]) = some 0x00000012#32 ∧
    statusAfter State.reset (hostIssue 0x00002420#32 ++ [.engine]) = some 0x00000022#32 := by
  decide +kernel

/-- V-PT-12 -/
theorem test_alignment_errors : slotAfter (.ptAdd 1 0 4) [] 0 = some (2, ⟨0#256, 0#256, 0#256, 0#256⟩) ∧
    slotAfter (.ptDbl 4 1) [] 4 = some (2, ⟨0#256, 0#256, 0#256, 0#256⟩) ∧
    slotAfter (.ptSmul 0 2 8) [] 0 = some (2, ⟨0#256, 0#256, 0#256, 0#256⟩) ∧
    slotAfter (.ptSmulb 2 8) [] 0 = some (2, ⟨0#256, 0#256, 0#256, 0#256⟩) ∧
    slotAfter (.ptEnc 9 3) [] 8 = some (2, ⟨0#256, 0#256, 0#256, 0#256⟩) ∧
    slotAfter (.ptDec 6 16) [] 4 = some (2, ⟨0#256, 0#256, 0#256, 0#256⟩) := by
  decide +kernel

/-- Program 5, steps 4 to 11, before the completion. -/
def program5 : List Event :=
  [hostWrite 0x004#12 1#32] ++ hostWriteWord 0 5#256 ++ hostWriteWord 1 7#256 ++ hostIssue 0x00002431#32

/-- Program 5, steps 6 to 9 -/
theorem test_program5_busy : statusAfter State.reset program5 = some 0x1#32 ∧
    statusAfter State.reset (program5 ++ [hostRead 0x100#12, hostWrite 0x104#12 0xFFFFFFFF#32]) = some 0x9#32 ∧
    statusAfter State.reset (program5 ++ [hostRead 0x100#12, hostWrite 0x104#12 0xFFFFFFFF#32,
      hostWrite 0x00C#12 0x00040210#32]) = some 0xD#32 := by
  decide +kernel

/-- Program 5, steps 11 and 12 -/
theorem test_program5_completion : statusAfter State.reset (program5 ++ [hostRead 0x100#12, hostWrite 0x104#12 0xFFFFFFFF#32,
      hostWrite 0x00C#12 0x00040210#32, .engine]) = some 0x2E#32 ∧
    statusAfter State.reset (program5 ++ [hostRead 0x100#12, hostWrite 0x104#12 0xFFFFFFFF#32,
      hostWrite 0x00C#12 0x00040210#32, .engine, hostWrite 0x008#12 0xE#32]) = some 0x20#32 := by
  decide +kernel

/-- V-CTL-2, V-CTL-3 -/
theorem test_irq : (play State.reset (program5 ++ [.engine])).map State.irq = some true ∧
    (play State.reset program5).map State.irq = some false ∧
    (play State.reset (program5 ++ [.engine, hostWrite 0x008#12 0x2#32])).map State.irq = some false := by
  decide +kernel

/-- V-CTL-11, V-CTL-12 -/
theorem test_soft_reset_aborts : play State.reset (program5 ++ [hostWrite 0x004#12 0x2#32, .engine]) =
    some { State.reset with resp := some .okWrite } := by
  decide +kernel

/-- R230 -/
theorem test_hard_reset : play State.reset (program5 ++ [.rstPin false, hostRead 0x000#12]) =
    some { State.reset with rstN := false } ∧
    (play State.reset (program5 ++ [.rstPin false, .rstPin true, hostRead 0x000#12])).bind State.resp =
      some (.data 0xED250100#32) := by
  decide +kernel

/-- V-CTL-13 -/
theorem test_sticky_overrun : statusAfter { State.reset with cmdovr := true } (hostIssue 0x00000000#32 ++ [.engine]) = some 0x6#32 := by
  decide +kernel

/-! ### Bus and byte order -/

/-- V-MEM-1 -/
theorem test_lanes_read : (lanes.map fun j => readAt (testState [(2, 0x0102030405060708#256)]) (laneOffset 2 j)) =
    [some (.data 0x05060708#32), some (.data 0x01020304#32)] ++ List.replicate 6 (some (.data 0#32)) ∧
    laneOffset 2 0 = 0x140#12 := by
  decide +kernel

/-- V-MEM-3 -/
theorem test_lane_write : (play State.reset [hostWrite 0x104#12 0xFFFFFFFF#32]).map (fun t => t.word 0) = some 0xFFFFFFFF00000000#256 := by
  decide +kernel

/-- V-MEM-4 -/
theorem test_bus_error : play (testState [(0, 5#256)]) [.access ⟨true, 0x101#12, 2#2, 0xF#4, 1#32, false⟩] =
      some { testState [(0, 5#256)] with resp := some .busError } ∧
    play (testState [(0, 5#256)]) [.access ⟨false, 0x100#12, 1#2, 0xF#4, 0#32, false⟩] =
      some { testState [(0, 5#256)] with resp := some .busError } := by
  decide +kernel

/-- V-MEM-5, V-MEM-6 -/
theorem test_registers : readAt State.reset 0x000#12 = some (.data 0xED250100#32) ∧ readAt State.reset 0x010#12 = some (.data 0x20#32) ∧
    readAt State.reset 0x014#12 = some (.data 0#32) ∧ readAt State.reset 0x500#12 = some (.data 0#32) ∧
    readAt { State.reset with drso := true } 0x010#12 = some (.data 0x120#32) := by
  decide +kernel

/-- R92 -/
theorem test_host_write_and_read : (play State.reset (hostWriteWord 31 0x67875f0fd78b766566ea4e8e64abe37d20f09f80775152f56dde8ab3a5b7dda3#256)).map (fun t => t.word 31) =
      some 0x67875f0fd78b766566ea4e8e64abe37d20f09f80775152f56dde8ab3a5b7dda3#256 ∧
    wordOfLanes (getLane 0x67875f0fd78b766566ea4e8e64abe37d20f09f80775152f56dde8ab3a5b7dda3#256) = 0x67875f0fd78b766566ea4e8e64abe37d20f09f80775152f56dde8ab3a5b7dda3#256 := by
  decide +kernel

/-- The bytes of encode(B), byte 0 first (R13). -/
def baseBytes : List Byte := [0x58#8] ++ List.replicate 31 0x66#8

/-- R13, R54 -/
theorem test_byte_order : wordOfBytes baseBytes = 0x6666666666666666666666666666666666666666666666666666666666666658#256 ∧ bytesOfWord 0x6666666666666666666666666666666666666666666666666666666666666658#256 = baseBytes ∧
    encodePoint basePoint = 0x6666666666666666666666666666666666666666666666666666666666666658#256 := by
  decide +kernel

/-- R90, R91 -/
theorem test_assembler : assembleLine "FE_MUL    w2, w0, w1          ; RD=2 RA=0 RB=1".toList = some [.feMul 2 0 1] ∧
    assembleLine "FE_CSEL   w9, w0, w1, w8      ; RD=9 RA=0 RB=1 RC=8".toList = some [.feCsel 9 0 1 8] ∧
    assembleLine "SC_RED512 w4, D1              ; RD=4 RA=2".toList = some [.scRed512 4 2] ∧
    assembleLine "PT_SMUL   P3, P1, w16         ; RD=12 RA=4 RB=16".toList = some [.ptSmul 12 4 16] ∧
    assembleLine "NOP".toList = some [.nop] ∧ assembleLine "PT_DBL w1, w0".toList = some [.ptDbl 1 0] ∧
    assembleLine "MOV w3, w0x1F".toList = some [.feCsel 3 31 31 0] ∧
    assembleLine "PT_MOV P1, P7".toList = some [.feCsel 4 28 28 0, .feCsel 5 29 29 0, .feCsel 6 30 30 0, .feCsel 7 31 31 0] ∧
    assembleLine "FE_ADD w1, w32, w0".toList = none := by
  decide +kernel

/-- The first step after a command word is placed runs it (R100, R102). -/
theorem test_fetch_word : step (State.withFetchWord State.reset 32 0x00000031) = exec (.ptDbl 0 0) (accept State.reset 0x31#32) := by
  rfl

/-- A block nobody talks to stays as it is (R110). -/
theorem test_reset_step : step State.reset = .next State.reset := by
  rfl
/-! ### Witnesses: the hypotheses of each statement are met together -/

/-- ERR after a command, if it answers a next state. -/
def errAfter (i : Instr) (s : State) : Option (BitVec 4) :=
  match exec i s with
  | .next t => some t.err
  | .fault _ => none
  | .refused _ => none

theorem exists_next {i : Instr} {s : State} {e : BitVec 4} (h : errAfter i s = some e) :
    ∃ t, exec i s = .next t ∧ t.err = e := by
  unfold errAfter at h
  split at h
  next t ht => exact ⟨t, ht, Option.some.inj h⟩
  next => exact absurd h (by simp)
  next => exact absurd h (by simp)

/-- norm(B) in slot P0 and norm(-B) in slot P1. -/
def twoPoints : State := testState
  [(0, 0x216936d3cd6e53fec0a4e231fdd6dc5c692cc7609525a7b2c9562d608f25d51a#256), (1, 0x6666666666666666666666666666666666666666666666666666666666666658#256), (2, 1#256), (3, 0x67875f0fd78b766566ea4e8e64abe37d20f09f80775152f56dde8ab3a5b7dda3#256),
   (4, 0x5e96c92c3291ac013f5b1dce022923a396d3389f6ada584d36a9d29f70da2ad3#256), (5, 0x6666666666666666666666666666666666666666666666666666666666666658#256), (6, 1#256), (7, 0x1878a0f02874899a9915b1719b541c82df0f607f88aead0a9221754c5a48224a#256)]

theorem slot0_valid : validPoint (extOf (twoPoints.slot 0)) = true := by
  decide +kernel

theorem slot1_valid : validPoint (extOf (twoPoints.slot 4)) = true := by
  decide +kernel

/-- A block that runs the command word `c`. -/
def running (c : BusWord) : State := accept State.reset c

theorem witness_EngineTurnRunsDecodedCommand : (running 0x00040212#32).rstN = true ∧ decode (running 0x00040212#32).lastcmd = .instr (.feMul 2 0 1) ∧
    (running 0x00040212#32).busy = true ∧ (running 0x00040212#32).agenda = [] ∧
    State.reset.rstN = true ∧ decode State.reset.lastcmd = .instr .nop ∧ State.reset.busy = false ∧
    { running 0x00040212#32 with agenda := [.engine] }.agenda = .engine :: [] := by
  decide

theorem witness_RejectedWords : (running 0x10000000#32).rstN = true ∧ (running 0x10000000#32).busy = true ∧
    (running 0x10000000#32).agenda = [] ∧ (running 0x10000000#32).lastcmd.extractLsb' 28 4 ≠ 0#4 ∧
    (running 0xF00000FF#32).lastcmd.extractLsb' 28 4 ≠ 0#4 ∧
    (running 0x01#32).lastcmd.extractLsb' 28 4 = 0#4 ∧
    (running 0xFF#32).lastcmd.extractLsb' 28 4 = 0#4 := by
  decide

/-- The ends of the ranges of R86, and their neighbours in R85. -/
theorem witness_ReservedOpcode : ReservedOpcode 0x01 ∧ ReservedOpcode 0x0F ∧ ReservedOpcode 0x17 ∧ ReservedOpcode 0x1F ∧ ReservedOpcode 0x23 ∧ ReservedOpcode 0x2F ∧ ReservedOpcode 0x36 ∧ ReservedOpcode 0xFF := by
  simp [ReservedOpcode]

theorem witness_notReservedOpcode : ¬ ReservedOpcode 0x00 ∧ ¬ ReservedOpcode 0x10 ∧ ¬ ReservedOpcode 0x16 ∧ ¬ ReservedOpcode 0x20 ∧ ¬ ReservedOpcode 0x22 ∧ ¬ ReservedOpcode 0x30 ∧ ¬ ReservedOpcode 0x35 := by
  simp [ReservedOpcode]

theorem witness_Misaligned : Instr.wellFormed (.ptSmul 0 2 8) = false ∧ Instr.wellFormed (.ptDec 0 16) = true := by
  decide

/-- An error, no error, and a draw (an all-zero slot is no valid point). -/
theorem witness_EveryCommandCompletes : errAfter (.ptDbl 4 1) State.reset = some 2#4 ∧
    errAfter (.feAdd 2 0 1) State.reset = some 0#4 ∧
    ∃ t, exec (.ptSmul 0 0 0) State.reset = .next t ∧ t.draws ≠ State.reset.draws := by
  refine ⟨by decide, by decide +kernel, ?_⟩
  have hv : ¬ validPoint (extOf (State.reset.slot 0)) = true := by decide +kernel
  obtain ⟨t, h, hd⟩ : ∃ t, execPtSmul 0 0 0 State.reset = .next t ∧ t.draws = 1 := by
    rw [execPtSmul, if_pos (by decide), if_neg hv]
    exact ⟨_, rfl, rfl⟩
  exact ⟨t, h, by rw [hd]; decide⟩

theorem witness_NopCompletes : (∃ c : BusWord, c.extractLsb' 0 8 = 0#8 ∧ c.extractLsb' 28 4 = 0#4 ∧ c ≠ 0#32) ∧
    ∃ c : BusWord, c.extractLsb' 0 8 = 0#8 ∧ c.extractLsb' 28 4 ≠ 0#4 := by
  exact ⟨⟨0x0FFFFF00#32, by decide⟩, ⟨0x10000000#32, by decide⟩⟩

theorem witness_FeCsel : (testState [(2, 3#256)]).uint 2 % 2 = 1 ∧ (testState [(2, 2#256)]).uint 2 % 2 = 0 := by
  decide +kernel

theorem witness_FeInvIsTheInverse : ∃ (rd ra re : Idx) (s t u : State), rd ≠ ra ∧ exec (.feInv rd ra) s = .next t ∧
    exec (.feMul re ra rd) t = .next u ∧ s.uint ra % p ≠ 0 := by
  obtain ⟨w, n, c, -, -, h⟩ := Laws.exec_eq_finish (.feInv 1 0) (testState [(0, 2#256)])
  obtain ⟨w', n', c', -, -, h'⟩ := Laws.exec_eq_finish (.feMul 2 0 1)
    (finish { testState [(0, 2#256)] with w := w, draws := n } c)
  exact ⟨1, 0, 2, _, _, _, by decide, h, h', by decide +kernel⟩

theorem witness_FeInvOfZero : ∃ (rd ra re : Idx) (s t u : State), rd ≠ ra ∧ exec (.feInv rd ra) s = .next t ∧
    exec (.feMul re ra rd) t = .next u ∧ s.uint ra % p = 0 := by
  obtain ⟨w, n, c, -, -, h⟩ := Laws.exec_eq_finish (.feInv 1 0) (testState [(0, BitVec.ofNat 256 p)])
  obtain ⟨w', n', c', -, -, h'⟩ := Laws.exec_eq_finish (.feMul 2 0 1)
    (finish { testState [(0, BitVec.ofNat 256 p)] with w := w, draws := n } c)
  exact ⟨1, 0, 2, _, _, _, by decide, h, h', by decide +kernel⟩

/-- One command of each of the six kinds. -/
theorem witness_FieldResultsAreCanonical : ∀ i ∈ [Instr.feAdd 2 0 1, .feSub 2 0 1, .feMul 2 0 1, .feSqr 2 0, .feInv 2 0, .fePow 2 0 1],
    i = .feAdd 2 0 1 ∨ i = .feSub 2 0 1 ∨ i = .feMul 2 0 1 ∨ i = .feSqr 2 0 ∨ i = .feInv 2 0 ∨ i = .fePow 2 0 1 := by
  simp

theorem witness_FePowSpecialExponents : (testState [(1, BitVec.ofNat 256 (p - 2))]).uint 1 = p - 2 ∧
    (testState [(1, 2#256)]).uint 1 = 2 ∧ (testState [(1, 1#256)]).uint 1 = 1 ∧ (testState []).uint 1 = 0 := by
  decide +kernel

theorem witness_MovAndFeRed : (28 : Idx).val % 4 = 0 ∧ (0 : Idx).val % 4 = 0 ∧ (testState [(6, 1#256)]).uint 6 = 1 := by
  decide +kernel

theorem witness_ScRed512 : (30 : Idx).val % 2 = 0 ∧ (31 : Idx).val % 2 ≠ 0 := by
  decide

/-- For PT_ADD, PT_DBL, PT_SMUL and PT_ENC: aligned slots that hold valid points. -/
theorem witness_valid_slots : (0 : Idx).val % 4 = 0 ∧ (4 : Idx).val % 4 = 0 ∧ (28 : Idx).val % 4 = 0 ∧
    validPoint (extOf (twoPoints.slot 0)) = true ∧ validPoint (extOf (twoPoints.slot 4)) = true :=
  ⟨by decide, by decide, by decide, slot0_valid, slot1_valid⟩

/-- V-PT-7's invalid point. -/
theorem witness_PtSmulDrawsForInvalidPoint : (0 : Idx).val % 4 = 0 ∧
    validPoint (extOf ((testState [(0, 5#256), (1, 6#256), (3, 7#256)]).slot 0)) = false := by
  decide +kernel

theorem witness_PtSmulbIsPtSmul : (4 : Idx).val % 4 = 0 ∧ twoPoints.slot 0 = wordsOf (normPoint basePoint) := by
  decide +kernel

theorem witness_BaseMultiples : (4 : Idx).val % 4 = 0 ∧
    (testState [(0, 1#256), (1, BitVec.ofNat 256 (L + 1)), (2, BitVec.ofNat 256 L)]).uint 0 % L =
      (testState [(0, 1#256), (1, BitVec.ofNat 256 (L + 1)), (2, BitVec.ofNat 256 L)]).uint 1 % L ∧
    (testState [(0, 1#256), (1, BitVec.ofNat 256 (L + 1)), (2, BitVec.ofNat 256 L)]).uint 2 % L = 0 := by
  decide +kernel

/-- Z = 0, Z = p, a valid slot, and a misaligned index. -/
theorem witness_PtEnc : (28 : Idx).val % 4 = 0 ∧ (testState []).uint (0 + 2) % p = 0 ∧
    (testState [(2, BitVec.ofNat 256 p)]).uint (0 + 2) % p = 0 ∧ (31 : Idx).val % 4 ≠ 0 := by
  decide +kernel

/-- Two slots of one point with different words, and two points (V-PT-9). -/
theorem witness_PtEncDecidesPointEquality :
    validPoint (extOf ((testState [(4, BitVec.ofNat 256 (2 * baseX % p)), (5, BitVec.ofNat 256 (2 * baseY % p)),
      (6, 2#256), (7, BitVec.ofNat 256 (2 * baseX * baseY % p))]).slot 4)) = true ∧
    aff (extOf ((testState [(4, BitVec.ofNat 256 (2 * baseX % p)), (5, BitVec.ofNat 256 (2 * baseY % p)),
      (6, 2#256), (7, BitVec.ofNat 256 (2 * baseX * baseY % p))]).slot 4)) = aff (extOf (twoPoints.slot 0)) ∧
    aff (extOf (twoPoints.slot 0)) ≠ aff (extOf (twoPoints.slot 4)) := by
  decide +kernel

/-- B under both policies; the identity, which the policy rejects; the word of no point; a misaligned slot. -/
theorem witness_PtDecAccepts : (28 : Idx).val % 4 = 0 ∧ basePoint.x < p ∧ basePoint.y < p ∧ SatisfiesCurve basePoint ∧
    basePoint.y + 2 ^ 255 * (basePoint.x % 2) = (testState [(16, 0x6666666666666666666666666666666666666666666666666666666666666658#256)]).uint 16 ∧ nsmul 8 basePoint ≠ identity := by
  unfold SatisfiesCurve
  decide +kernel

theorem witness_PtDecPolicy : identity.x < p ∧ identity.y < p ∧ SatisfiesCurve identity ∧
    identity.y + 2 ^ 255 * (identity.x % 2) = ({ testState [(16, 1#256)] with drso := true } : State).uint 16 ∧
    ({ testState [(16, 1#256)] with drso := true } : State).drso = true ∧ nsmul 8 identity = identity := by
  unfold SatisfiesCurve
  decide +kernel

theorem witness_PtDecNoPoint : (31 : Idx).val % 4 ≠ 0 ∧
    ¬ ∃ q : Affine, q.x < p ∧ q.y < p ∧ SatisfiesCurve q ∧
      q.y + 2 ^ 255 * (q.x % 2) = (testState [(16, 2#256)]).uint 16 := by
  refine ⟨by decide, ?_⟩
  rintro ⟨q, hx, hy, hs, he⟩
  have h16 : (testState [(16, 2#256)]).uint 16 = (2#256).toNat := by decide +kernel
  have hw : encodePoint q = 2#256 := BitVec.eq_of_toNat_eq (by rw [Laws.encodePoint_toNat hy, he, h16])
  have hd := (Laws.decodePoint_false_iff 2#256 q).2 ⟨⟨hx, hy⟩, (Laws.satisfiesCurve_iff q).1 hs, hw⟩
  have hn : decodePoint false 2#256 = none := by decide +kernel
  rw [hn] at hd
  exact absurd hd (by simp)

theorem witness_PtEncAfterPtDec : ∃ t, exec (.ptDec 0 16) (testState [(16, 0x6666666666666666666666666666666666666666666666666666666666666658#256)]) = .next t ∧ t.err = 0#4 :=
  exists_next (by decide +kernel)

theorem witness_PtDecAfterPtEnc : twoPoints.drso = false ∧ ∃ t, exec (.ptEnc 16 4) twoPoints = .next t := by
  obtain ⟨t, h, -⟩ := exists_next (i := .ptEnc 16 4) (s := twoPoints) (e := 0#4) (by decide +kernel)
  exact ⟨by decide, t, h⟩

/-- Two states that differ outside the sources of PT_DBL, in T too. -/
theorem witness_SourceWords : (testState [(0, 1#256), (3, 4#256), (9, 5#256)]).drso = (testState [(0, 1#256)]).drso ∧
    (testState [(0, 1#256), (3, 4#256), (9, 5#256)]).draws = (testState [(0, 1#256)]).draws ∧
    (∀ j ∈ sources (.ptDbl 4 0), (testState [(0, 1#256), (3, 4#256), (9, 5#256)]).word j = (testState [(0, 1#256)]).word j) ∧
    testState [(0, 1#256), (3, 4#256), (9, 5#256)] ≠ testState [(0, 1#256)] := by
  decide +kernel

/-- A 16-bit read, an odd offset, a burst, and a write with three strobes. -/
theorem witness_OtherTransfers : (⟨false, 0x100#12, 1#2, 0xF#4, 0#32, false⟩ : Transfer).size ≠ 2#2 ∧
    (⟨false, 0x101#12, 2#2, 0xF#4, 0#32, false⟩ : Transfer).addr.toNat % 4 ≠ 0 ∧
    (⟨true, 0x100#12, 2#2, 0xF#4, 0#32, true⟩ : Transfer).burst = true ∧
    (⟨true, 0x100#12, 2#2, 0x7#4, 0#32, false⟩ : Transfer).wstrb ≠ 0xF#4 := by
  decide

/-- The first and the last lane, idle and busy. -/
theorem witness_OperandLanes : State.reset.busy = false ∧ (running 0#32).busy = true ∧ laneOffset 0 0 = 0x100#12 ∧
    laneOffset 31 7 = 0x4FC#12 ∧ (0x100#12).toNat % 4 = 0 ∧ (0x4FC#12).toNat % 4 = 0 ∧ (0x4FC#12).toNat ≤ 0x4FF := by
  decide

/-- The ends of the two reserved ranges of R34. -/
theorem witness_ReservedOffsets :
    (0x014#12).toNat % 4 = 0 ∧ ((0x014 ≤ (0x014#12).toNat ∧ (0x014#12).toNat ≤ 0x0FF) ∨ (0x500 ≤ (0x014#12).toNat ∧ (0x014#12).toNat ≤ 0xFFF)) ∧
    (0x0FC#12).toNat % 4 = 0 ∧ ((0x014 ≤ (0x0FC#12).toNat ∧ (0x0FC#12).toNat ≤ 0x0FF) ∨ (0x500 ≤ (0x0FC#12).toNat ∧ (0x0FC#12).toNat ≤ 0xFFF)) ∧
    (0x500#12).toNat % 4 = 0 ∧ ((0x014 ≤ (0x500#12).toNat ∧ (0x500#12).toNat ≤ 0x0FF) ∨ (0x500 ≤ (0x500#12).toNat ∧ (0x500#12).toNat ≤ 0xFFF)) ∧
    (0xFFC#12).toNat % 4 = 0 ∧ ((0x014 ≤ (0xFFC#12).toNat ∧ (0xFFC#12).toNat ≤ 0x0FF) ∨ (0x500 ≤ (0xFFC#12).toNat ∧ (0xFFC#12).toNat ≤ 0xFFF)) := by
  decide

/-- CTRL and STATUS words for each clause. -/
theorem witness_RegisterWords : (0x1#32).getLsbD 1 = false ∧ (0x3#32).getLsbD 1 = true ∧ (0xE#32).getLsbD 1 = true ∧
    ({ State.reset with done := true } : State).done = true := by
  decide

theorem witness_HardReset : ({ running 0#32 with agenda := [.rstPin false] } : State).rstN = true ∧
    ({ State.reset with rstN := false, agenda := [.engine] } : State).rstN = false ∧ Event.engine ≠ .rstPin true ∧
    ({ State.reset with rstN := false, agenda := [.rstPin true] } : State).agenda = .rstPin true :: [] := by
  decide

theorem witness_ByteViews : baseBytes.length = 32 ∧ (baseBytes ++ baseBytes).length = 64 := by
  decide

theorem witness_HostWrite : ∃ s : State, s.busy = false ∧ s.rstN = true ∧ s.agenda = hostWriteWord 31 5#256 :=
  ⟨{ State.reset with agenda := hostWriteWord 31 5#256 }, rfl, rfl, rfl⟩

theorem witness_HostRun : ∃ s : State, s.busy = false ∧ s.rstN = true ∧ s.agenda = hostRun (.feMul 2 0 1) 2 :=
  ⟨{ State.reset with agenda := hostRun (.feMul 2 0 1) 2 }, rfl, rfl, rfl⟩

/-- CMDOVR and ACCERR cleared by a STATUS write. -/
theorem witness_StickyBits :
    (∃ s t : State, step s = .next t ∧ s.cmdovr = true ∧ t.cmdovr = false) ∧
    ∃ s t : State, step s = .next t ∧ s.accerr = true ∧ t.accerr = false :=
  ⟨⟨{ State.reset with cmdovr := true, agenda := [hostWrite 0x008#12 4#32] }, _, rfl, rfl, by decide⟩,
    ⟨{ State.reset with accerr := true, agenda := [hostWrite 0x008#12 8#32] }, _, rfl, rfl, by decide⟩⟩

/-- A word changed by a completion, by a lane write, and by a reset. -/
theorem witness_OperandFileChanges :
    (∃ (s t : State) (m : Idx), step s = .next t ∧ t.word m ≠ s.word m ∧ s.busy = true) ∧
    (∃ (s t : State) (m : Idx), step s = .next t ∧ t.word m ≠ s.word m ∧ s.busy = false ∧ s.rstN = true) ∧
    ∃ (s t : State) (m : Idx), step s = .next t ∧ t.word m ≠ s.word m ∧ s.rstN = false :=
  ⟨⟨running 0x00000222#32, _, 2, rfl, by decide +kernel, rfl⟩,
    ⟨{ State.reset with agenda := [hostWrite (laneOffset 31 7) 1#32] }, _, 31, rfl, by decide +kernel, rfl, rfl⟩,
    ⟨{ testState [(3, 1#256)] with rstN := false }, _, 3, rfl, by decide +kernel, rfl⟩⟩

/-- BUSY set, BUSY cleared, LASTCMD changed. -/
theorem witness_BusyAndLastcmd :
    (∃ s t : State, step s = .next t ∧ s.busy = false ∧ t.busy = true ∧ t.lastcmd ≠ s.lastcmd) ∧
    ∃ s t : State, step s = .next t ∧ s.busy = true ∧ t.busy = false :=
  ⟨⟨{ State.reset with agenda := hostIssue 0x00040212#32 }, _, rfl, rfl, by decide, by decide⟩,
    ⟨running 0#32, _, rfl, rfl, by decide⟩⟩

theorem witness_StepKeepsInvariant : Inv (running 0x00040212#32) ∧ ∃ t, step (running 0x00040212#32) = .next t := by
  refine ⟨⟨by decide, by decide, fun h => absurd h (by decide)⟩, ?_⟩
  obtain ⟨w, n, c, -, -, h⟩ := Laws.exec_eq_finish (.feMul 2 0 1) (running 0x00040212#32)
  exact ⟨_, h⟩

/-- The agenda runs out on a busy block, on an idle one, and on one held in reset. -/
theorem witness_EveryRunEndsIdle :
    (∃ s u : State, Sys2Proof.core.run s.agenda.length s = .next u ∧ u.rstN = true ∧ u.busy = true) ∧
    (∃ s u : State, Sys2Proof.core.run s.agenda.length s = .next u ∧ u.rstN = true ∧ u.busy = false) ∧
    ∃ s u : State, Sys2Proof.core.run s.agenda.length s = .next u ∧ u.rstN = false :=
  ⟨⟨{ State.reset with agenda := hostIssue 0x00040212#32 }, _, rfl, rfl, rfl⟩, ⟨State.reset, _, rfl, rfl, rfl⟩,
    ⟨{ State.reset with agenda := [.rstPin false] }, _, rfl, rfl⟩⟩

theorem witness_RunningCommand : (running 0x00040212#32).rstN = true ∧ (running 0x00040212#32).busy = true ∧
    decode (running 0x00040212#32).lastcmd = .instr (.feMul 2 0 1) ∧
    (∀ tr ∈ [writeTransfer 0x100#12 7#32, writeTransfer 0x00C#12 0x10#32, writeTransfer 0x004#12 1#32, readTransfer 0x008#12],
      ¬ (tr.accepted = true ∧ tr.we = true ∧ tr.addr = 0x004#12 ∧ tr.wdata.getLsbD 1 = true)) := by
  decide

end Sys2Proof.Tests
end

/-! The block's registers and what one step can change in them: the obligations on STATUS, CTRL, CMD, the constants, the
reset values, and the invariant of a step. -/

namespace Sys2Proof.Proofs

open Sys2Proof.Machine Sys2Proof.Laws

/-! ### Transfers as steps -/

/-- A write does not look at the pin or the agenda (R59). -/
theorem memWrite_rstN_agenda (s : State) (b : Bool) (a : List Event) (off : BitVec 12) (v : BusWord) :
    memWrite { s with rstN := b, agenda := a } off v = { memWrite s off v with rstN := b, agenda := a } := by
  unfold memWrite
  cases regionOf off with
  | ctrl => simp only [writeCtrl]; split <;> rfl
  | cmd => simp only [writeCommand]; split <;> rfl
  | operand n j => simp only []; split <;> rfl
  | id | status | param | reserved => rfl

/-- Nor does a read (R59). -/
theorem memRead_rstN_agenda (s : State) (b : Bool) (a : List Event) (off : BitVec 12) :
    memRead { s with rstN := b, agenda := a } off =
      ((memRead s off).1, { (memRead s off).2 with rstN := b, agenda := a }) := by
  unfold memRead
  cases regionOf off with
  | operand n j => simp only []; split <;> rfl
  | id | ctrl | status | cmd | param | reserved => rfl

theorem writeTransfer_accepted {off : BitVec 12} (v : BusWord) (h : off.toNat % 4 = 0) :
    (writeTransfer off v).accepted = true := by
  simp [Transfer.accepted, writeTransfer, h]

theorem readTransfer_accepted {off : BitVec 12} (h : off.toNat % 4 = 0) : (readTransfer off).accepted = true := by
  simp [Transfer.accepted, readTransfer, h]

/-- A transfer out of reset is served by the bus slave in one step (R50, R61). -/
theorem serves_of_busAccess {s t : State} {tr : Transfer}
    (h : ∀ rest, busAccess { s with rstN := true, agenda := rest } tr = { t with rstN := true, agenda := rest }) :
    Serves s tr t := fun rest => congrArg Host.Outcome.next (h rest)

/-- An aligned write is served with the effect of MemWrite (R50). -/
theorem serves_write (s : State) (off : BitVec 12) (v : BusWord) (h : off.toNat % 4 = 0) :
    Serves s (writeTransfer off v) { memWrite s off v with resp := some .okWrite } := by
  refine serves_of_busAccess fun rest => ?_
  rw [busAccess, if_pos (writeTransfer_accepted v h)]
  simp only [writeTransfer, if_true, memWrite_rstN_agenda]

/-- An aligned read is served with the value and the effect of MemRead (R50). -/
theorem serves_read (s : State) (off : BitVec 12) (h : off.toNat % 4 = 0) :
    Serves s (readTransfer off) { (memRead s off).2 with resp := some (.data (memRead s off).1) } := by
  refine serves_of_busAccess fun rest => ?_
  rw [busAccess, if_pos (readTransfer_accepted h)]
  simp only [readTransfer, Bool.false_eq_true, if_false, memRead_rstN_agenda]

/-! ### The registers -/

theorem serves_write_ctrl (s : State) (v : BusWord) :
    Serves s (writeTransfer 0x004#12 v) { writeCtrl s v with resp := some .okWrite } :=
  serves_write s 0x004#12 v (by decide)

theorem serves_write_status (s : State) (v : BusWord) :
    Serves s (writeTransfer 0x008#12 v) { writeStatus s v with resp := some .okWrite } :=
  serves_write s 0x008#12 v (by decide)

theorem serves_write_cmd_idle {s : State} (c : BusWord) (h : s.busy = false) :
    Serves s (writeTransfer 0x00C#12 c) { accept s c with resp := some .okWrite } := by
  have hw : writeCommand s c = accept s c := by simp [writeCommand, h]
  exact hw ▸ serves_write s 0x00C#12 c (by decide)

theorem serves_write_cmd_busy {s : State} (c : BusWord) (h : s.busy = true) :
    Serves s (writeTransfer 0x00C#12 c) { dropCommand s with resp := some .okWrite } := by
  have hw : writeCommand s c = dropCommand s := by simp [writeCommand, h]
  exact hw ▸ serves_write s 0x00C#12 c (by decide)

theorem writeCtrl_softReset (s : State) {v : BusWord} (h : v.getLsbD 1 = true) : writeCtrl s v = applyReset s :=
  if_pos h

theorem writeCtrl_enable (s : State) {v : BusWord} (h : v.getLsbD 1 = false) :
    writeCtrl s v = { s with ie := v.getLsbD 0 } := if_neg (Bool.eq_false_iff.1 h)

/-- A flag is the one bit of its place. -/
theorem getLsbD_flagBit (b : Bool) {k : Nat} (hk : k < 32) (i : Nat) :
    (flagBit b k).getLsbD i = (b && decide (k = i)) := by
  cases b with
  | false => simp [flagBit]
  | true =>
    rw [flagBit, if_pos rfl, BitVec.getLsbD_ofNat, Nat.testBit_two_pow, Bool.true_and]
    by_cases h : k = i
    · simp [h ▸ hk]
    · simp [h]

/-- STATUS bit by bit (R25). -/
theorem getLsbD_statusWord (s : State) (i : Nat) : s.statusWord.getLsbD i =
    (s.busy && decide (0 = i) || s.done && decide (1 = i) || s.cmdovr && decide (2 = i) ||
      s.accerr && decide (3 = i) || decide (4 ≤ i) && s.err.getLsbD (i - 4)) := by
  have herr : (BitVec.ofNat 32 (s.err.toNat * 2 ^ 4)).getLsbD i = (decide (4 ≤ i) && s.err.getLsbD (i - 4)) := by
    rw [BitVec.getLsbD_ofNat, Nat.testBit_mul_two_pow, BitVec.testBit_toNat]
    by_cases hi : i < 32
    · simp [hi]
    · rw [BitVec.getLsbD_of_ge s.err (i - 4) (by omega)]
      simp
  simp only [State.statusWord, BitVec.getLsbD_or, getLsbD_flagBit, Nat.reduceLT, herr]

/-- ERR stands in STATUS[7:4] (R25). -/
theorem statusWord_errField (s : State) : s.statusWord.extractLsb' 4 4 = s.err := by
  apply BitVec.eq_of_getLsbD_eq
  intro i hi
  have h0 : 0 ≠ 4 + i ∧ 1 ≠ 4 + i ∧ 2 ≠ 4 + i ∧ 3 ≠ 4 + i := by omega
  simp [getLsbD_statusWord, hi, h0]

/-- STATUS[31:8] reads 0 (R25). -/
theorem statusWord_upperBits (s : State) : s.statusWord.extractLsb' 8 24 = 0#24 := by
  apply BitVec.eq_of_getLsbD_eq
  intro i hi
  have h0 : 0 ≠ 8 + i ∧ 1 ≠ 8 + i ∧ 2 ≠ 8 + i ∧ 3 ≠ 8 + i := by omega
  have herr : s.err.getLsbD (8 + i - 4) = false := BitVec.getLsbD_of_ge _ _ (by omega)
  simp [getLsbD_statusWord, h0, herr]

theorem paramWord_eq (s : State) : s.paramWord = if s.drso then 0x00000120#32 else 0x00000020#32 := by
  cases h : s.drso <;> simp [State.paramWord, flagBit, h]

/-- The two ranges that no rule names are reserved (R34). -/
theorem regionOf_reserved {off : BitVec 12}
    (h : (0x014 ≤ off.toNat ∧ off.toNat ≤ 0x0FF) ∨ (0x500 ≤ off.toNat ∧ off.toNat ≤ 0xFFF)) :
    regionOf off = .reserved := by
  have hne : ∀ c : BitVec 12, c.toNat < 0x014 → off ≠ c := by
    rintro c hc rfl
    omega
  unfold regionOf
  rw [if_neg (hne _ (by decide)), if_neg (hne _ (by decide)), if_neg (hne _ (by decide)), if_neg (hne _ (by decide)),
    if_neg (hne _ (by decide)), dif_neg (by omega)]

/-- Settles O43, by the two branches of a CMD write. -/
theorem cmdRegisterAcceptsOrDrops : Obligations.CmdRegisterAcceptsOrDrops := by
  unfold Obligations.CmdRegisterAcceptsOrDrops
  intro s c
  exact ⟨serves_write_cmd_idle c, serves_write_cmd_busy c, serves_read s 0x00C#12 (by decide), rfl, by decide⟩

/-- Settles O44, by the bits of the STATUS word. -/
theorem statusRegisterFields : Obligations.StatusRegisterFields := by
  unfold Obligations.StatusRegisterFields
  intro s v
  have hwrite := serves_write_status s v
  have hclear : ∀ a b : Bool, (a && !b) = if b then false else a := by decide
  simp only [writeStatus, hclear] at hwrite
  refine ⟨⟨s.statusWord, serves_read s 0x008#12 (by decide), ?_, ?_, ?_, ?_, statusWord_errField s,
    statusWord_upperBits s⟩, hwrite, by decide⟩ <;>
  · rw [getLsbD_statusWord]
    simp

/-- Settles O45, by the regions of the address map. -/
theorem constantAndReservedOffsets : Obligations.ConstantAndReservedOffsets := by
  unfold Obligations.ConstantAndReservedOffsets
  intro s v
  refine ⟨serves_read s 0x000#12 (by decide), serves_write s 0x000#12 v (by decide), ?_,
    serves_write s 0x010#12 v (by decide), fun off ha hoff => ?_⟩
  · rw [← paramWord_eq]
    exact serves_read s 0x010#12 (by decide)
  · have hread := serves_read s off ha
    have hwrite := serves_write s off v ha
    simp only [memRead, memWrite, regionOf_reserved hoff] at hread hwrite
    exact ⟨hread, hwrite⟩

/-- Settles O46, by bit 1 of the word written. -/
theorem ctrlRegisterEnablesAndResets : Obligations.CtrlRegisterEnablesAndResets := by
  unfold Obligations.CtrlRegisterEnablesAndResets
  intro s v
  refine ⟨serves_read s 0x004#12 (by decide), fun hv => ?_, fun hv => ?_, by decide⟩
  · have h := serves_write_ctrl s v
    rwa [writeCtrl_enable s hv] at h
  · have h := serves_write_ctrl s v
    rw [writeCtrl_softReset s hv] at h
    exact ⟨_, h, atReset_of_resp (applyReset_atReset s) _, rfl, rfl, rfl⟩

/-! ### The interrupt output -/

theorem irq_finish (s : State) (c : BitVec 4) : (finish s c).irq = s.ie := by
  simp [State.irq]

theorem irq_of_done_false {s : State} (h : s.done = false) : s.irq = false := by
  simp [State.irq, h]

/-- Settles O48, by the completion's one form and the three register writes. -/
theorem irqFollowsDoneAndIe : Obligations.IrqFollowsDoneAndIe := by
  unfold Obligations.IrqFollowsDoneAndIe
  refine ⟨fun _ => rfl, fun s => ?_, fun i s => ?_, fun s c hb => ?_, fun s v hv => ?_, fun s hd => ?_⟩
  · obtain ⟨w, n, c, -, h⟩ := engineStep_eq_finish s
    exact ⟨_, h, irq_finish _ c⟩
  · obtain ⟨w, n, c, -, -, h⟩ := exec_eq_finish i s
    exact ⟨_, h, irq_finish _ c⟩
  · exact ⟨_, serves_write_cmd_idle c hb, irq_of_done_false rfl⟩
  · exact ⟨_, serves_write_status s v, irq_of_done_false (by simp [hv])⟩
  · have h := serves_write_ctrl s 1#32
    rw [writeCtrl_enable s (by decide)] at h
    exact ⟨_, h, by simp [State.irq, hd]⟩

/-! ### Reset -/

theorem reset_atReset : AtReset State.reset := applyReset_atReset State.reset

/-- Settles O58, by the reset values that every reset leaves. -/
theorem resetValues : Obligations.ResetValues := by
  unfold Obligations.ResetValues
  have hirq : ∀ {t : State}, AtReset t → AtReset t ∧ t.irq = false := fun h => ⟨h, irq_of_done_false h.done⟩
  refine ⟨reset_atReset, rfl, fun s => hirq (hardReset_atReset s), fun s v hv => hirq ?_, rfl, by decide⟩
  have hw : memWrite s 0x004#12 v = applyReset s := writeCtrl_softReset s hv
  rw [hw]
  exact applyReset_atReset s

/-! ### The invariant -/

theorem inv_of_atReset {s : State} (h : AtReset s) : Inv s where
  errLegal := by simp [h.err]
  busyClean hb := absurd hb (by simp [h.busy])
  held _ := h

/-- Out of reset, a change that keeps ERR and BUSY and does not set DONE keeps the invariant. -/
theorem inv_of_done_le {s t : State} (hs : Inv s) (pin : t.rstN = true) (herr : t.err = s.err)
    (hbusy : t.busy = s.busy) (hdone : t.done = true → s.done = true) : Inv t where
  errLegal := herr ▸ hs.errLegal
  busyClean hb := by
    obtain ⟨hd, he⟩ := hs.busyClean (hbusy ▸ hb)
    exact ⟨Bool.eq_false_iff.2 fun h => by simp [hdone h] at hd, herr.trans he⟩
  held hr := absurd hr (by simp [pin])

/-- Settles O57: the reset values meet the invariant. -/
theorem resetSatisfiesInvariant : Obligations.ResetSatisfiesInvariant := inv_of_atReset reset_atReset

/-- Settles O56, by the effects of a step: a reset, a completion and an acceptance set ERR, BUSY and DONE together, and
every other effect keeps ERR and BUSY and does not set DONE. -/
theorem stepKeepsInvariant : Obligations.StepKeepsInvariant := by
  unfold Obligations.StepKeepsInvariant
  intro s t hs hstep
  cases step_effect hstep
  case reset state => exact inv_of_atReset state
  case completion pin _ _ code eq =>
    subst eq
    exact ⟨code, fun hb => absurd hb (by simp), fun hr => absurd hr (by simp [pin])⟩
  case accepted pin _ _ eq =>
    subst eq
    exact ⟨by simp, fun _ => ⟨rfl, rfl⟩, fun hr => absurd hr (by simp [pin])⟩
  case clear pin _ eq =>
    subst eq
    exact inv_of_done_le hs pin rfl rfl fun hd => (Bool.and_eq_true_iff.1 hd).1
  case nothing eq | refused eq | enable eq | dropped eq | operand eq =>
    subst eq
    exact inv_of_done_le hs ‹s.rstN = true› rfl rfl id

/-! ### What a step can change -/

/-- The sticky bits after a step out of reset: as the STATUS write leaves them, or at least what they were (R28). -/
theorem step_stickyBits {s t : State} (h : step s = .next t) : ResetsNext s ∨
    (∃ v, WritesNext s 0x008#12 v ∧ t.cmdovr = (s.cmdovr && !v.getLsbD 2) ∧
      t.accerr = (s.accerr && !v.getLsbD 3)) ∨
    ((s.cmdovr = true → t.cmdovr = true) ∧ (s.accerr = true → t.accerr = true)) := by
  cases step_effect h
  case reset cause _ => exact Or.inl cause
  case clear v _ _ _ cause eq =>
    subst eq
    exact Or.inr (Or.inl ⟨v, cause, rfl, rfl⟩)
  case refused eq =>
    subst eq
    exact Or.inr (Or.inr ⟨id, fun _ => rfl⟩)
  case dropped eq =>
    subst eq
    exact Or.inr (Or.inr ⟨fun _ => rfl, id⟩)
  case nothing eq | completion eq | enable eq | accepted eq | operand eq =>
    subst eq
    exact Or.inr (Or.inr ⟨id, id⟩)

/-- The operand file after a step out of reset: a completion's, one lane written, or as it was (R20, R58, R66). -/
theorem step_operandFile {s t : State} (h : step s = .next t) : ResetsNext s ∨
    (s.busy = true ∧ EngineNext s ∧ t.busy = false ∧ t.done = true) ∨
    (s.busy = false ∧ ∃ n j v, WritesNext s (laneOffset n j) v ∧ t.w = setWord s.w n (setLane (s.word n) j v)) ∨
    t.w = s.w := by
  cases step_effect h
  case reset cause _ => exact Or.inl cause
  case completion turn busy _ eq =>
    subst eq
    exact Or.inr (Or.inl ⟨busy, turn, rfl, rfl⟩)
  case operand n j v _ _ _ cause busy eq =>
    subst eq
    exact Or.inr (Or.inr (Or.inl ⟨busy, n, j, v, cause, rfl⟩))
  case nothing eq | refused eq | enable eq | clear eq | accepted eq | dropped eq =>
    subst eq
    exact Or.inr (Or.inr (Or.inr rfl))

/-- BUSY and LASTCMD after a step: a reset, BUSY cleared by a completion, both set by an acceptance, or as they were
(R26, R32). -/
theorem step_busyLastcmd {s t : State} (h : step s = .next t) : (ResetsNext s ∧ t.busy = false) ∨
    (EngineNext s ∧ t.busy = false ∧ t.done = true ∧ t.lastcmd = s.lastcmd) ∨
    (s.busy = false ∧ t.busy = true ∧ WritesNext s 0x00C#12 t.lastcmd) ∨
    (t.busy = s.busy ∧ t.lastcmd = s.lastcmd) := by
  cases step_effect h
  case reset cause state => exact Or.inl ⟨cause, state.busy⟩
  case completion turn _ _ eq =>
    subst eq
    exact Or.inr (Or.inl ⟨turn, rfl, rfl, rfl⟩)
  case accepted cause busy eq =>
    subst eq
    exact Or.inr (Or.inr (Or.inl ⟨busy, rfl, cause⟩))
  case nothing eq | refused eq | enable eq | clear eq | dropped eq | operand eq =>
    subst eq
    exact Or.inr (Or.inr (Or.inr ⟨rfl, rfl⟩))

/-- Settles O53, by what a step does to the sticky bits. -/
theorem stickyBitsClearOnlyByW1cOrReset : Obligations.StickyBitsClearOnlyByW1cOrReset := by
  unfold Obligations.StickyBitsClearOnlyByW1cOrReset
  intro s t h
  rcases step_stickyBits h with hr | ⟨v, hv, hc, ha⟩ | ⟨hc, ha⟩
  · exact ⟨fun _ _ => Or.inl hr, fun _ _ => Or.inl hr⟩
  · exact ⟨fun h1 h0 => Or.inr ⟨v, hv, by simpa [h1, h0] using hc⟩,
      fun h1 h0 => Or.inr ⟨v, hv, by simpa [h1, h0] using ha⟩⟩
  · exact ⟨fun h1 h0 => by simp [hc h1] at h0, fun h1 h0 => by simp [ha h1] at h0⟩

/-- Settles O54, by what a step does to the operand file: a lane write changes its own word alone. -/
theorem operandFileChangesOnlyAsTheRulesSay : Obligations.OperandFileChangesOnlyAsTheRulesSay := by
  unfold Obligations.OperandFileChangesOnlyAsTheRulesSay
  intro s t m h hne
  rcases step_operandFile h with hr | hc | ⟨hb, n, j, v, hv, hw⟩ | hw
  · exact Or.inl hr
  · exact Or.inr (Or.inl hc)
  · have hm : m = n := by
      by_contra hmn
      exact hne (by simp only [State.word, hw, getElem_setWord, if_neg hmn])
    exact Or.inr (Or.inr ⟨hb, j, v, hm ▸ hv⟩)
  · exact absurd (by simp only [State.word, hw]) hne

/-- Settles O55, by what a step does to BUSY and LASTCMD. -/
theorem busyAndLastcmdChangeOnlyAsTheRulesSay : Obligations.BusyAndLastcmdChangeOnlyAsTheRulesSay := by
  unfold Obligations.BusyAndLastcmdChangeOnlyAsTheRulesSay
  intro s t h
  rcases step_busyLastcmd h with ⟨hr, hb⟩ | ⟨he, hb, hd, hl⟩ | ⟨hs, hb, hv⟩ | ⟨hb, hl⟩
  · exact ⟨fun _ h1 => by simp [hb] at h1, fun _ _ => Or.inl hr, fun _ => Or.inl hr⟩
  · exact ⟨fun _ h1 => by simp [hb] at h1, fun _ _ => Or.inr ⟨he, hd⟩, fun hne => absurd hl hne⟩
  · exact ⟨fun _ _ => hv, fun h1 _ => by simp [hs] at h1, fun _ => Or.inr ⟨hs, hv⟩⟩
  · exact ⟨fun h0 h1 => by simp [hb, h0] at h1, fun h1 h0 => by simp [hb, h1] at h0, fun hne => absurd hl hne⟩

end Sys2Proof.Proofs

/-! The block's memory, which is its operand file as the bus sees it: the lanes of the operand window, the transfers it
refuses, the byte views, and the words of a running command. -/

namespace Sys2Proof.Proofs

open Sys2Proof.Machine Sys2Proof.Laws

/-! ### Refused transfers -/

/-- The four ways a transfer misses the one access form (R56). -/
theorem accepted_eq_false_iff (tr : Transfer) : tr.accepted = false ↔
    tr.size ≠ 2#2 ∨ tr.addr.toNat % 4 ≠ 0 ∨ tr.burst = true ∨ (tr.we = true ∧ tr.wstrb ≠ 0xF#4) := by
  simp only [Transfer.accepted, Bool.and_eq_false_iff, Bool.or_eq_false_iff, Bool.not_eq_false', beq_eq_false_iff_ne,
    or_assoc]

theorem busAccess_of_not_accepted (s : State) {tr : Transfer} (h : tr.accepted = false) :
    busAccess s tr = { s with resp := some .busError } := if_neg (Bool.eq_false_iff.1 h)

/-- Settles O40, by the one branch of the bus slave for every other form. -/
theorem otherTransfersEndInBusError : Obligations.OtherTransfersEndInBusError := by
  unfold Obligations.OtherTransfersEndInBusError
  intro s tr h
  exact serves_of_busAccess fun rest => busAccess_of_not_accepted _ ((accepted_eq_false_iff tr).2 h)

/-! ### The operand window -/

theorem toNat_laneOffset (n : Idx) (j : Fin 8) : (laneOffset n j).toNat = 0x100 + 32 * n.val + 4 * j.val := by
  rw [laneOffset, BitVec.toNat_ofNat, Nat.mod_eq_of_lt (by omega)]

theorem laneOffset_aligned (n : Idx) (j : Fin 8) : (laneOffset n j).toNat % 4 = 0 := by
  rw [toNat_laneOffset]
  omega

/-- The lane offsets are the multiples of 4 of the operand window (R52). -/
theorem mem_window_iff_exists_laneOffset {off : BitVec 12} (ha : off.toNat % 4 = 0) :
    (0x100 ≤ off.toNat ∧ off.toNat ≤ 0x4FF) ↔ ∃ n j, off = laneOffset n j := by
  constructor
  · rintro ⟨hlo, hhi⟩
    refine ⟨⟨(off.toNat - 0x100) / 32, by omega⟩, ⟨(off.toNat - 0x100) % 32 / 4, by omega⟩, BitVec.eq_of_toNat_eq ?_⟩
    rw [toNat_laneOffset]
    dsimp only
    omega
  · rintro ⟨n, j, rfl⟩
    rw [toNat_laneOffset]
    omega

theorem memRead_lane_idle {s : State} (n : Idx) (j : Fin 8) (h : s.busy = false) :
    memRead s (laneOffset n j) = (getLane (s.word n) j, s) := by
  simp [memRead, regionOf_laneOffset, h]

theorem memRead_lane_busy {s : State} (n : Idx) (j : Fin 8) (h : s.busy = true) :
    memRead s (laneOffset n j) = (0#32, refuseOperandAccess s) := by
  simp [memRead, regionOf_laneOffset, h]

theorem memWrite_lane_idle {s : State} (n : Idx) (j : Fin 8) (v : BusWord) (h : s.busy = false) :
    memWrite s (laneOffset n j) v = { s with w := setWord s.w n (setLane (s.word n) j v) } := by
  simp [memWrite, regionOf_laneOffset, h]

theorem memWrite_lane_busy {s : State} (n : Idx) (j : Fin 8) (v : BusWord) (h : s.busy = true) :
    memWrite s (laneOffset n j) v = refuseOperandAccess s := by
  simp [memWrite, regionOf_laneOffset, h]

/-- Every lane of a word after a write of one lane (R52). -/
theorem getLane_setLane (v : Word) (j j' : Fin 8) (x : BusWord) :
    getLane (setLane v j x) j' = if j' = j then x else getLane v j' := by
  split
  next h => rw [h, getLane_setLane_same]
  next h => exact getLane_setLane_other v j j' x h

/-- Settles O41, by MemRead and MemWrite at a lane's offset, and the lanes of the word written. -/
theorem operandLanesReadAndWrite : Obligations.OperandLanesReadAndWrite := by
  unfold Obligations.OperandLanesReadAndWrite
  intro s n j v hb
  have hread := serves_read s _ (laneOffset_aligned n j)
  have hwrite := serves_write s _ v (laneOffset_aligned n j)
  rw [memRead_lane_idle n j hb] at hread
  rw [memWrite_lane_idle n j v hb] at hwrite
  refine ⟨hread, ⟨setWord s.w n (setLane (s.word n) j v), hwrite, fun m hm => ?_, fun j' => ?_⟩, fun off ha =>
    mem_window_iff_exists_laneOffset ha⟩
  · rw [getElem_setWord, if_neg hm, State.word]
  · rw [getElem_setWord, if_pos rfl]
    exact getLane_setLane (s.word n) j j' v

/-- Settles O42: every offset of the window is a lane's, and a busy block refuses each. -/
theorem busyOperandAccessIsRefused : Obligations.BusyOperandAccessIsRefused := by
  unfold Obligations.BusyOperandAccessIsRefused
  intro s off v hb ha hlo hhi
  obtain ⟨n, j, rfl⟩ := (mem_window_iff_exists_laneOffset ha).1 ⟨hlo, hhi⟩
  have hread := serves_read s _ ha
  have hwrite := serves_write s _ v ha
  rw [memRead_lane_busy n j hb] at hread
  rw [memWrite_lane_busy n j v hb] at hwrite
  exact ⟨hread, hwrite⟩

/-! ### The byte views -/

/-- A byte of a lane is a byte of its word (R53). -/
theorem byteLane_getLane (v : Word) (j : Fin 8) (k : Fin 4) :
    byteLane (getLane v j) k = v.extractLsb' (8 * (4 * j.val + k.val)) 8 := by
  apply BitVec.eq_of_getLsbD_eq
  intro i hi
  have hin : 8 * k.val + i < 32 := by omega
  have hpos : 32 * j.val + (8 * k.val + i) = 8 * (4 * j.val + k.val) + i := by omega
  simp only [byteLane, getLane, BitVec.getLsbD_extractLsb', hin, hpos, decide_true, Bool.true_and]

/-- The base-256 digits of a number are the bytes of its binary form. -/
theorem ofNat_div_eq_extractLsb' (v : Word) (i : Nat) :
    BitVec.ofNat 8 (v.toNat / 256 ^ i) = v.extractLsb' (8 * i) 8 := by
  apply BitVec.eq_of_toNat_eq
  rw [BitVec.toNat_ofNat, BitVec.extractLsb'_toNat, Nat.shiftRight_eq_div_pow, pow_mul]
  rfl

theorem wordOfBytes_bytesOfWord (v : Word) : wordOfBytes (bytesOfWord v) = v := by
  have hv : v.toNat < 256 ^ 32 := v.isLt
  rw [wordOfBytes, bytesOfWord, natOfBytes_bytesOfNat 32 _ hv, BitVec.ofNat_toNat, BitVec.setWidth_eq]

/-- 32 bytes fit a word (R54). -/
theorem toNat_wordOfBytes {b : List Byte} (h : b.length = 32) : (wordOfBytes b).toNat = natOfBytes b := by
  have hlt : natOfBytes b < 256 ^ 32 := h ▸ natOfBytes_lt b
  rw [wordOfBytes, BitVec.toNat_ofNat]
  exact Nat.mod_eq_of_lt hlt

theorem bytesOfWord_wordOfBytes {b : List Byte} (h : b.length = 32) : bytesOfWord (wordOfBytes b) = b := by
  rw [bytesOfWord, toNat_wordOfBytes h, ← h, bytesOfNat_natOfBytes]

/-- The pair's low word holds the first 32 bytes (R55). -/
theorem toNat_pairOfBytes {h : List Byte} (hl : h.length = 64) :
    (pairOfBytes h).1.toNat + 2 ^ 256 * (pairOfBytes h).2.toNat = natOfBytes h := by
  have hlow : (h.take 32).length = 32 := by simp [hl]
  have hhigh : (h.drop 32).length = 32 := by simp [hl]
  calc (pairOfBytes h).1.toNat + 2 ^ 256 * (pairOfBytes h).2.toNat
      = natOfBytes (h.take 32) + 256 ^ (h.take 32).length * natOfBytes (h.drop 32) := by
        simp only [pairOfBytes, toNat_wordOfBytes hlow, toNat_wordOfBytes hhigh, hlow, Nat.reducePow]
    _ = natOfBytes h := by rw [← natOfBytes_append, List.take_append_drop]

/-- Settles O49, by the digits of a word to the base 256. -/
theorem byteViewsAreLittleEndian : Obligations.ByteViewsAreLittleEndian := by
  unfold Obligations.ByteViewsAreLittleEndian
  refine ⟨byteLane_getLane, fun v => ⟨wordOfBytes_bytesOfWord v, length_bytesOfNat 32 _, fun i hi => ?_⟩,
    fun b => bytesOfWord_wordOfBytes, fun h => toNat_pairOfBytes⟩
  rw [bytesOfWord, getElem?_bytesOfNat 32 _ i hi, ofNat_div_eq_extractLsb']

/-! ### A running command -/

/-- An accepted write of CTRL with bit 1 set (R31, R231). -/
def IsSoftReset (tr : Transfer) : Prop :=
  tr.accepted = true ∧ tr.we = true ∧ tr.addr = 0x004#12 ∧ tr.wdata.getLsbD 1 = true

/-- `t` runs the command that `s` runs, on the same operand words: all that its completion depends on is equal
(R65, R102). -/
structure RunsSameCommand (s t : State) : Prop where
  w : t.w = s.w
  busy : t.busy = s.busy
  lastcmd : t.lastcmd = s.lastcmd
  drso : t.drso = s.drso
  rstN : t.rstN = s.rstN
  draws : t.draws = s.draws

theorem RunsSameCommand.trans {s t u : State} (h : RunsSameCommand s t) (h' : RunsSameCommand t u) :
    RunsSameCommand s u :=
  ⟨h'.w.trans h.w, h'.busy.trans h.busy, h'.lastcmd.trans h.lastcmd, h'.drso.trans h.drso, h'.rstN.trans h.rstN,
    h'.draws.trans h.draws⟩

/-- A transfer that is no soft reset leaves a running command as it is (R57, R58, R65, R101). -/
theorem busAccess_runsSameCommand {s : State} {tr : Transfer} (hb : s.busy = true) (hr : ¬ IsSoftReset tr) :
    RunsSameCommand s (busAccess s tr) ∧ (busAccess s tr).agenda = s.agenda := by
  obtain ⟨s', r, he, hs⟩ := busAccess_cases s tr
  rw [he]
  rcases hs with rfl | ⟨-, rfl⟩ | ⟨hacc, hwe, ⟨haddr, rfl⟩ | ⟨-, rfl⟩ | ⟨-, rfl⟩ | ⟨n, j, -, hidle, -⟩⟩
  · exact ⟨⟨rfl, rfl, rfl, rfl, rfl, rfl⟩, rfl⟩
  · exact ⟨⟨rfl, rfl, rfl, rfl, rfl, rfl⟩, rfl⟩
  · have hv : tr.wdata.getLsbD 1 = false := Bool.eq_false_iff.2 fun hv => hr ⟨hacc, hwe, haddr, hv⟩
    rw [writeCtrl_enable s hv]
    exact ⟨⟨rfl, rfl, rfl, rfl, rfl, rfl⟩, rfl⟩
  · exact ⟨⟨rfl, rfl, rfl, rfl, rfl, rfl⟩, rfl⟩
  · rw [writeCommand, if_pos hb]
    exact ⟨⟨rfl, rfl, rfl, rfl, rfl, rfl⟩, rfl⟩
  · exact absurd hidle (by simp [hb])

/-- A run over transfers alone, none of them a soft reset, brings the block to its completion with the command as it
was. -/
theorem run_transfers_runsSameCommand (trs : List Transfer) {s : State} (k : Nat) (hrst : s.rstN = true)
    (hb : s.busy = true) (ha : s.agenda = trs.map Event.access) (hr : ∀ tr ∈ trs, ¬ IsSoftReset tr) :
    ∃ u : State, RunsSameCommand s u ∧ u.agenda = [] ∧
      Sys2Proof.core.run (trs.length + k) s = Sys2Proof.core.run k u := by
  induction trs generalizing s with
  | nil => exact ⟨s, ⟨rfl, rfl, rfl, rfl, rfl, rfl⟩, ha, by rw [List.length_nil, Nat.zero_add]⟩
  | cons tr trs ih =>
    rw [List.map_cons] at ha
    obtain ⟨hr1, hrs⟩ := List.forall_mem_cons.1 hr
    obtain ⟨hsame, hagenda⟩ := busAccess_runsSameCommand (s := { s with agenda := trs.map Event.access }) hb hr1
    have hstep : step s = .next (busAccess { s with agenda := trs.map Event.access } tr) := by
      rw [step_cons s _ _ ha]
      simp only [runEvent, hrst]
    obtain ⟨u, hu, hnil, hrun⟩ := ih (hsame.rstN.trans hrst) (hsame.busy.trans hb) hagenda hrs
    have hfirst : RunsSameCommand s (busAccess { s with agenda := trs.map Event.access } tr) :=
      ⟨hsame.w, hsame.busy, hsame.lastcmd, hsame.drso, hsame.rstN, hsame.draws⟩
    refine ⟨u, hfirst.trans hu, hnil, ?_⟩
    rw [List.length_cons, Nat.add_right_comm, run_succ Sys2Proof.core _ s _ hstep]
    exact hrun

/-- With nothing more on the agenda, a busy block's step is its command (R102, R106). -/
theorem step_quiet_busy {s : State} {i : Instr} (ha : s.agenda = []) (hrst : s.rstN = true) (hb : s.busy = true)
    (hi : decode s.lastcmd = .instr i) : step s = exec i s := by
  rw [step_nil s ha, runQuiet, if_pos hrst, engineTurn, if_pos hb, engineStep, hi]

/-- Settles O60, by induction on the transfers: the completion finds the command and the words as they stood. -/
theorem runningCommandIsUndisturbed : Obligations.RunningCommandIsUndisturbed := by
  unfold Obligations.RunningCommandIsUndisturbed
  intro s i trs hrst hb hi ha hr
  obtain ⟨u, hsame, hnil, hrun⟩ := run_transfers_runsSameCommand trs 1 hrst hb ha hr
  obtain ⟨w, n, c, hexec, hexec'⟩ :=
    exec_congr i { s with agenda := [] } u hsame.w.symm hsame.drso.symm hsame.draws.symm
  have hstep : step u = exec i u :=
    step_quiet_busy hnil (hsame.rstN.trans hrst) (hsame.busy.trans hb) (hsame.lastcmd.symm ▸ hi)
  refine ⟨_, _, hexec, hrun.trans (run_succ Sys2Proof.core 0 u _ (hstep.trans hexec')), rfl, rfl, rfl, rfl,
    hsame.lastcmd, rfl⟩

end Sys2Proof.Proofs

/-! The command words: which words decode to which command, which the decoder rejects, and how a rejected word and a
misaligned command complete. -/

namespace Sys2Proof.Proofs

open Sys2Proof.Machine Sys2Proof.Laws

/-! ### Decoding and encoding -/

/-- An encoding that packs the command's own OP and fields decodes to the command (R81, R85). -/
theorem decode_encode_of_pack {i : Instr} {rd ra rb rc : Idx} (hpack : encode i = packCommand i.opcode rd ra rb rc)
    (hmap : commandOf i.opcode rd ra rb rc = some i) : decode (encode i) = .instr i := by
  rw [hpack, decode_pack _ _ _ _ _ (opcode_lt i), hmap]
  rfl

/-- Settles O1: each command packs the fields that the opcode map gives back, and 0 in the others. -/
theorem decodeOfEncodeIsTheCommand : Obligations.DecodeOfEncodeIsTheCommand := by
  unfold Obligations.DecodeOfEncodeIsTheCommand
  intro i
  cases i with
  | nop => exact decode_encode_of_pack (rd := 0) (ra := 0) (rb := 0) (rc := 0) rfl rfl
  | feSqr rd ra | feInv rd ra | scRed512 rd ra | scClamp rd ra | ptDbl rd ra | ptSmulb rd ra | ptEnc rd ra
  | ptDec rd ra => exact decode_encode_of_pack (rd := rd) (ra := ra) (rb := 0) (rc := 0) rfl rfl
  | feAdd rd ra rb | feSub rd ra rb | feMul rd ra rb | fePow rd ra rb | ptAdd rd ra rb | ptSmul rd ra rb =>
    exact decode_encode_of_pack (rd := rd) (ra := ra) (rb := rb) (rc := 0) rfl rfl
  | feCsel rd ra rb rc | scMuladd rd ra rb rc =>
    exact decode_encode_of_pack (rd := rd) (ra := ra) (rb := rb) (rc := rc) rfl rfl

/-- Settles O4: each command encodes to its word, so the word decodes to the command. -/
theorem workedEncodings : Obligations.WorkedEncodings := by
  unfold Obligations.WorkedEncodings
  have both : ∀ {i : Instr} {c : BusWord}, encode i = c → decode c = .instr i ∧ encode i = c := by
    rintro i _ rfl
    exact ⟨decodeOfEncodeIsTheCommand i, rfl⟩
  exact ⟨both rfl, both rfl, both rfl, both rfl, both rfl, both rfl, both rfl, both rfl, both rfl⟩

/-! ### The fields a command uses -/

/-- A word under a mask of its lowest `m` bits and of RSV, against a packed word. -/
theorem and_mask_eq_pack_iff (c : BusWord) {m op : Nat} (rd ra rb rc : Idx) (hm : m ≤ 28) (hop : op < 256) :
    c &&& BitVec.ofNat 32 (2 ^ m - 1 + 0xF0000000) = packCommand op rd ra rb rc ↔
      c.toNat % 2 ^ m + fieldRSV c * 2 ^ 28 =
        op + rd.val * 2 ^ 8 + ra.val * 2 ^ 13 + rb.val * 2 ^ 18 + rc.val * 2 ^ 23 := by
  rw [← BitVec.toNat_inj, toNat_and_mask c m hm, packCommand_toNat _ _ _ _ _ hop, fieldRSV]

/-- A command without operands uses OP and RSV alone. -/
theorem and_mask_eq_pack_iff_op (c : BusWord) {op : Nat} (hop : op < 256) :
    c &&& 0xF00000FF#32 = packCommand op 0 0 0 0 ↔ fieldRSV c = 0 ∧ fieldOP c = op := by
  refine (and_mask_eq_pack_iff c (m := 8) 0 0 0 0 (by decide) hop).trans ?_
  simp only [fieldOP, Fin.val_zero]
  omega

/-- A command with two operands uses RD and RA too. -/
theorem and_mask_eq_pack_iff_ra (c : BusWord) {op : Nat} (rd ra : Idx) (hop : op < 256) :
    c &&& 0xF003FFFF#32 = packCommand op rd ra 0 0 ↔
      fieldRSV c = 0 ∧ fieldOP c = op ∧ fieldRD c = rd ∧ fieldRA c = ra := by
  refine (and_mask_eq_pack_iff c (m := 18) rd ra 0 0 (by decide) hop).trans ?_
  simp only [fieldOP, fieldRD, fieldRA, operandField, Fin.ext_iff, Fin.val_zero]
  omega

/-- A command with three operands uses RB too. -/
theorem and_mask_eq_pack_iff_rb (c : BusWord) {op : Nat} (rd ra rb : Idx) (hop : op < 256) :
    c &&& 0xF07FFFFF#32 = packCommand op rd ra rb 0 ↔
      fieldRSV c = 0 ∧ fieldOP c = op ∧ fieldRD c = rd ∧ fieldRA c = ra ∧ fieldRB c = rb := by
  refine (and_mask_eq_pack_iff c (m := 23) rd ra rb 0 (by decide) hop).trans ?_
  simp only [fieldOP, fieldRD, fieldRA, fieldRB, operandField, Fin.ext_iff, Fin.val_zero]
  omega

/-- A command with four operands uses the whole word. -/
theorem and_mask_eq_pack_iff_rc (c : BusWord) {op : Nat} (rd ra rb rc : Idx) (hop : op < 256) :
    c &&& 0xFFFFFFFF#32 = packCommand op rd ra rb rc ↔
      fieldRSV c = 0 ∧ fieldOP c = op ∧ fieldRD c = rd ∧ fieldRA c = ra ∧ fieldRB c = rb ∧ fieldRC c = rc := by
  refine (and_mask_eq_pack_iff c (m := 28) rd ra rb rc (by decide) hop).trans ?_
  simp only [fieldOP, fieldRD, fieldRA, fieldRB, fieldRC, operandField, Fin.ext_iff]
  omega

/-- The opcode map gives a command under its own OP alone (R85). -/
theorem commandOf_eq_some_iff (op : Nat) (rd ra rb rc : Idx) (i : Instr) :
    commandOf op rd ra rb rc = some i ↔ op = i.opcode ∧ commandOf i.opcode rd ra rb rc = some i := by
  constructor
  · intro h
    obtain rfl := opcode_of_commandOf h
    exact ⟨rfl, h⟩
  · rintro ⟨rfl, h⟩
    exact h

/-- Settles O2, by the four sets of fields that the rows of R85 use. -/
theorem unusedFieldsAreIgnored : Obligations.UnusedFieldsAreIgnored := by
  unfold Obligations.UnusedFieldsAreIgnored
  intro c i
  rw [decode_eq_instr_iff, commandOf_eq_some_iff]
  have hop := opcode_lt i
  cases i with
  | nop => exact Iff.trans (by simp [commandOf, Instr.opcode]) (and_mask_eq_pack_iff_op c hop).symm
  | feSqr rd ra | feInv rd ra | scRed512 rd ra | scClamp rd ra | ptDbl rd ra | ptSmulb rd ra | ptEnc rd ra
  | ptDec rd ra => exact Iff.trans (by simp [commandOf, Instr.opcode]) (and_mask_eq_pack_iff_ra c rd ra hop).symm
  | feAdd rd ra rb | feSub rd ra rb | feMul rd ra rb | fePow rd ra rb | ptAdd rd ra rb | ptSmul rd ra rb =>
    exact Iff.trans (by simp [commandOf, Instr.opcode]) (and_mask_eq_pack_iff_rb c rd ra rb hop).symm
  | feCsel rd ra rb rc | scMuladd rd ra rb rc =>
    exact Iff.trans (by simp [commandOf, Instr.opcode]) (and_mask_eq_pack_iff_rc c rd ra rb rc hop).symm

/-! ### Rejected words -/

theorem decode_eq_reservedField_iff (c : BusWord) : decode c = .reservedField ↔ fieldRSV c ≠ 0 := by
  unfold decode
  split
  next h => simp [h]
  next h => split <;> simp [h]

theorem decode_eq_illegalOpcode_iff (c : BusWord) : decode c = .illegalOpcode ↔
    fieldRSV c = 0 ∧ commandOf (fieldOP c) (fieldRD c) (fieldRA c) (fieldRB c) (fieldRC c) = none := by
  unfold decode
  split
  next h => simp [h]
  next h => split <;> simp_all

/-- The gaps of the opcode map are R86's reserved ranges. -/
theorem commandOf_eq_none_iff {op : Nat} (rd ra rb rc : Idx) (hop : op < 256) :
    commandOf op rd ra rb rc = none ↔ ReservedOpcode op := by
  unfold commandOf ReservedOpcode
  split
  case h_18 =>
    simp only [imp_false, true_iff] at *
    omega
  all_goals simp

theorem fieldOP_lt (c : BusWord) : fieldOP c < 256 := Nat.mod_lt _ (by decide)

/-- Settles O3, by the decoder's two checks and the gaps of the opcode map. -/
theorem decoderRejectsExactlyReservedWords : Obligations.DecoderRejectsExactlyReservedWords := by
  unfold Obligations.DecoderRejectsExactlyReservedWords
  intro c
  rw [decode_eq_reservedField_iff, decode_eq_illegalOpcode_iff, commandOf_eq_none_iff _ _ _ _ (fieldOP_lt c), ne_eq,
    ne_eq, extractLsb'_rsv, extractLsb'_op]
  exact ⟨Iff.rfl, Iff.rfl⟩

/-- Out of reset, a step in which the Engine has the turn is its turn, with the event taken off the agenda (R102). -/
theorem step_of_engineNext {s : State} (hrst : s.rstN = true) (h : EngineNext s) :
    step s = engineTurn { s with agenda := s.agenda.tail } := by
  rcases step_cases s hrst with ⟨-, hs⟩ | ⟨tr, rest, ha, -⟩ | ⟨rest, ha, -⟩ | ⟨rest, ha, -⟩
  · exact hs
  all_goals simp [EngineNext, ha] at h

/-- A busy block whose Engine has the turn completes a word that decodes to no command with an error (R103). -/
theorem step_of_raise {s : State} {e : ErrCode} (hrst : s.rstN = true) (hb : s.busy = true) (h : EngineNext s)
    (he : engineStep { s with agenda := s.agenda.tail } = raise { s with agenda := s.agenda.tail } e) :
    ∃ t, step s = .next t ∧ CompletedFrom { s with agenda := s.agenda.tail } t e.code ∧ t.w = s.w ∧
      t.draws = s.draws := by
  rw [step_of_engineNext hrst h, engineTurn, if_pos hb, he]
  exact ⟨_, raise_eq _ e, finish_completedFrom { s with agenda := s.agenda.tail } s.w s.draws e.code, rfl, rfl⟩

/-- Settles O6, by what the decoder answers for each class of words. -/
theorem rejectedWordsCompleteWithTheirCode : Obligations.RejectedWordsCompleteWithTheirCode := by
  unfold Obligations.RejectedWordsCompleteWithTheirCode
  intro s hrst hb h
  obtain ⟨hreserved, hillegal⟩ := decoderRejectsExactlyReservedWords s.lastcmd
  refine ⟨fun hrsv => ?_, fun hrsv hop => ?_, fun hrsv hop => ?_⟩
  · exact step_of_raise (e := .reservedField) hrst hb h (by simp only [engineStep, hreserved.2 hrsv])
  · exact step_of_raise (e := .illegalOpcode) hrst hb h (by simp only [engineStep, hillegal.2 ⟨hrsv, hop⟩])
  · cases hd : decode s.lastcmd with
    | instr i => exact ⟨i, rfl⟩
    | reservedField => exact absurd hrsv (hreserved.1 hd)
    | illegalOpcode => exact absurd (hillegal.1 hd).2 hop

/-! ### Misaligned operands -/

theorem namesPoint_eq_false_iff (i : Idx) : Idx.namesPoint i = false ↔ i.val % 4 ≠ 0 := decide_eq_false_iff_not

theorem namesPair_eq_false_iff (i : Idx) : Idx.namesPair i = false ↔ i.val % 2 ≠ 0 := decide_eq_false_iff_not

theorem exec_of_not_wellFormed {i : Instr} (h : i.wellFormed = false) (s : State) :
    exec i s = raise s .operandAlign := by
  rcases exec_cases i s with ⟨-, he⟩ | ⟨hw, -⟩ | ⟨hw, -⟩
  · exact he
  all_goals simp [h] at hw

/-- Settles O7: an ill-formed command raises OPERAND_ALIGN, and the lines of R88's table are the model's checks. -/
theorem misalignedOperandsCompleteWithOperandAlign : Obligations.MisalignedOperandsCompleteWithOperandAlign := by
  unfold Obligations.MisalignedOperandsCompleteWithOperandAlign
  refine fun i s => ⟨fun h => endsWithError_of_eq (exec_of_not_wellFormed h s), ?_⟩
  cases i with
  | nop | feAdd | feSub | feMul | feSqr | feInv | fePow | feCsel | scMuladd | scClamp => simp [Instr.wellFormed]
  | scRed512 rd ra => simp [Instr.wellFormed, namesPair_eq_false_iff]
  | ptAdd | ptDbl | ptSmul | ptSmulb | ptEnc | ptDec =>
    simp only [Instr.wellFormed, Bool.and_eq_false_iff, namesPoint_eq_false_iff, or_assoc]
    simp

end Sys2Proof.Proofs

/-! What a command's result depends on, the pseudo-instructions, and the host's own programs: loading a word, and
running a command from its CMD write to the last poll. -/

namespace Sys2Proof.Proofs

open Sys2Proof.Machine Sys2Proof.Laws

/-! ### The words a result depends on -/

/-- The command completes on both states with the same ERR and, without an error, the same destination words. -/
def SameResult (i : Instr) (s s' : State) : Prop :=
  ∃ t t', exec i s = .next t ∧ exec i s' = .next t' ∧ t.err = t'.err ∧
    (t.err = 0#4 → ∀ j ∈ destinations i, t.word j = t'.word j)

/-- The same writes to all destinations leave the same words there, whatever stood in them before. -/
theorem sameResult_of_complete {i : Instr} {s s' r r' : State} {ws ws' : List (Idx × Word)}
    (hdest : ws.map Prod.fst = destinations i) (h : exec i s = complete r ws) (h' : exec i s' = complete r' ws')
    (hws : ws = ws') : SameResult i s s' := by
  subst hws
  refine ⟨_, _, h, h', rfl, fun _ j hj => ?_⟩
  rw [← hdest] at hj
  exact getElem_applyWrites_of_mem _ _ ws j hj

theorem sameResult_of_raise {i : Instr} {s s' : State} {e : ErrCode} (h : exec i s = raise s e)
    (h' : exec i s' = raise s' e) : SameResult i s s' := by
  refine ⟨_, _, h, h', rfl, fun he => absurd he ?_⟩
  rw [finish_err]
  cases e <;> decide

theorem slot_congr {s s' : State} {a : Idx} (h : ∀ j ∈ slotIndices a, s.word j = s'.word j) :
    s.slot a = s'.slot a := by
  simp only [slotIndices, List.forall_mem_cons] at h
  obtain ⟨hx, hy, hz, ht, -⟩ := h
  simp only [State.slot, hx, hy, hz, ht]

/-- PT_DBL's formulas do not read T (R171). -/
theorem extDbl_congr {e e' : Ext} (hx : e.x = e'.x) (hy : e.y = e'.y) (hz : e.z = e'.z) : extDbl e = extDbl e' := by
  simp only [extDbl, hx, hy, hz]

/-- Nor does the affine point of a slot (R161, R174). -/
theorem aff_congr {e e' : Ext} (hx : e.x = e'.x) (hy : e.y = e'.y) (hz : e.z = e'.z) : aff e = aff e' := by
  simp only [aff, hx, hy, hz]

/-- Settles O39: an ill-formed command raises on both states, and a well-formed one writes what its rule computes from
the words it reads. -/
theorem sourceWordsDetermineTheResult : Obligations.SourceWordsDetermineTheResult := by
  unfold Obligations.SourceWordsDetermineTheResult
  intro i s s' hdrso hdraws hsrc
  change SameResult i s s'
  rcases Bool.eq_false_or_eq_true i.wellFormed with hwf | hwf
  case inr => exact sameResult_of_raise (exec_of_not_wellFormed hwf s) (exec_of_not_wellFormed hwf s')
  cases i with simp only [sources, List.forall_mem_append, List.forall_mem_cons] at hsrc
  | nop => exact sameResult_of_complete rfl rfl rfl rfl
  | feAdd | feSub | feMul | fePow =>
    obtain ⟨ha, hb, -⟩ := hsrc
    exact sameResult_of_complete rfl rfl rfl (by simp only [State.uint, ha, hb])
  | feSqr | feInv | scClamp =>
    obtain ⟨ha, -⟩ := hsrc
    exact sameResult_of_complete rfl rfl rfl (by simp only [State.uint, ha])
  | feCsel | scMuladd =>
    obtain ⟨ha, hb, hc, -⟩ := hsrc
    exact sameResult_of_complete rfl rfl rfl (by simp only [State.uint, ha, hb, hc])
  | scRed512 =>
    obtain ⟨hlow, hhigh, -⟩ := hsrc
    exact sameResult_of_complete rfl (if_pos hwf) (if_pos hwf) (by simp only [State.pair, State.uint, hlow, hhigh])
  | ptAdd =>
    obtain ⟨ha, hb⟩ := hsrc
    exact sameResult_of_complete rfl (if_pos hwf) (if_pos hwf) (by rw [slot_congr ha, slot_congr hb])
  | ptDbl rd ra =>
    obtain ⟨hx, hy, hz, -⟩ := hsrc
    refine sameResult_of_complete rfl (if_pos hwf) (if_pos hwf) ?_
    rw [extDbl_congr (e' := extOf (s'.slot ra))] <;> simp only [extOf, State.slot, hx, hy, hz]
  | ptSmul rd ra rb =>
    obtain ⟨ha, hb, -⟩ := hsrc
    have hslot := slot_congr ha
    by_cases hv : validPoint (extOf (s.slot ra)) = true
    · exact sameResult_of_complete rfl ((if_pos hwf).trans (if_pos hv)) ((if_pos hwf).trans (if_pos (hslot ▸ hv)))
        (by simp only [hslot, State.uint, hb])
    · exact sameResult_of_complete rfl ((if_pos hwf).trans (if_neg hv)) ((if_pos hwf).trans (if_neg (hslot ▸ hv)))
        (by rw [hslot, hb, hdraws])
  | ptSmulb =>
    obtain ⟨ha, -⟩ := hsrc
    exact sameResult_of_complete rfl (if_pos hwf) (if_pos hwf) (by simp only [State.uint, ha])
  | ptEnc rd ra =>
    obtain ⟨hx, hy, hz, -⟩ := hsrc
    refine sameResult_of_complete rfl (if_pos hwf) (if_pos hwf) ?_
    rw [aff_congr (e' := extOf (s'.slot ra))] <;> simp only [extOf, State.slot, hx, hy, hz]
  | ptDec rd ra =>
    obtain ⟨ha, -⟩ := hsrc
    have h := execPtDec_of_aligned rd ra s hwf
    have h' := execPtDec_of_aligned rd ra s' hwf
    rw [hdrso, ha] at h
    cases hd : decodePoint s'.drso (s'.word ra) with
    | none =>
      rw [hd] at h h'
      exact sameResult_of_raise h h'
    | some q =>
      rw [hd] at h h'
      exact sameResult_of_complete rfl h h' rfl

/-! ### The pseudo-instructions -/

/-- `MOV wd, wa` (R91) as a completion: W[a] stands in W[d]. -/
def movCompletion (d a : Idx) (s : State) : State := finish { s with w := setWord s.w d (s.word a) } 0#4

theorem exec_mov (d a : Idx) (s : State) : exec (.feCsel d a a 0) s = complete s (wordWrite d (s.word a)) := by
  simp only [exec, execFeCsel, ite_self]

theorem exec_mov_eq_next (d a : Idx) (s : State) : exec (.feCsel d a a 0) s = .next (movCompletion d a s) :=
  exec_mov d a s

theorem word_movCompletion (d a j : Idx) (s : State) :
    (movCompletion d a s).word j = if j = d then s.word a else s.word j :=
  getElem_setWord s.w d j (s.word a)

/-- A copy's later sources are none of its earlier destinations when both slots are aligned, overlap included (R22). -/
theorem slot_source_ne_destination {d a : Idx} (hd : d.val % 4 = 0) (ha : a.val % 4 = 0) :
    a + 1 ≠ d ∧ a + 2 ≠ d ∧ a + 2 ≠ d + 1 ∧ a + 3 ≠ d ∧ a + 3 ≠ d + 1 ∧ a + 3 ≠ d + 2 := by
  simp only [ne_eq, Fin.ext_iff, Fin.val_add, Fin.val_one, Fin.val_two]
  omega

/-- `PT_MOV` (R91) as a completion: its four copies, one after another. -/
def ptMovCompletion (d a : Idx) (s : State) : State :=
  movCompletion (d + 3) (a + 3) (movCompletion (d + 2) (a + 2) (movCompletion (d + 1) (a + 1) (movCompletion d a s)))

theorem slot_ptMovCompletion {d a : Idx} (hd : d.val % 4 = 0) (ha : a.val % 4 = 0) (s : State) :
    (ptMovCompletion d a s).slot d = s.slot a := by
  obtain ⟨n01, n02, n03, n12, n13, n23⟩ := slotIndices_nodup d
  obtain ⟨m10, m20, m21, m30, m31, m32⟩ := slot_source_ne_destination hd ha
  simp [State.slot, ptMovCompletion, word_movCompletion, *]

theorem ptMovCompletion_sameExcept (d a : Idx) (s : State) :
    WordsSameExcept s (ptMovCompletion d a s) (slotIndices d) := by
  intro j hj
  simp only [slotIndices, List.mem_cons, List.not_mem_nil, or_false, not_or] at hj
  simp only [ptMovCompletion, word_movCompletion, hj, if_false]

/-- Settles O21, by the copies as completions and the product with 1. -/
theorem movAndFeRedExpansions : Obligations.MovAndFeRedExpansions := by
  unfold Obligations.MovAndFeRedExpansions
  intro d a one s
  refine ⟨rfl, writesWord_of_eq (exec_mov d a s), rfl, fun hone => ?_, rfl, fun hd ha => ?_⟩
  · have hprod : fmul (s.uint a) (s.uint one) = s.uint a % p := by rw [fmul, hone, Nat.mul_one]
    have hlt : fmul (s.uint a) (s.uint one) < 2 ^ 256 :=
      (fmul_lt _ _).trans (p_lt_two_pow_255.trans (by decide))
    exact hprod ▸ writesWord_toWord rfl hlt
  · exact ⟨_, _, _, ptMovCompletion d a s, exec_mov_eq_next _ _ _, exec_mov_eq_next _ _ _, exec_mov_eq_next _ _ _,
      exec_mov_eq_next _ _ _, finish_completedFrom s _ s.draws 0#4, slot_ptMovCompletion hd ha s,
      ptMovCompletion_sameExcept d a s⟩

/-! ### Steps of a host program -/

theorem core_run_succ {s t : State} (k : Nat) (h : step s = .next t) :
    Sys2Proof.core.run (k + 1) s = Sys2Proof.core.run k t :=
  run_succ Sys2Proof.core k s t h

/-- A served transfer that is next on the agenda of a block out of reset. -/
theorem step_of_serves {s t : State} {tr : Transfer} {rest : List Event} (h : Serves s tr t) (hrst : s.rstN = true)
    (hrst' : t.rstN = true) (ha : s.agenda = .access tr :: rest) : step s = .next { t with agenda := rest } := by
  have hs : s = { s with rstN := true, agenda := .access tr :: rest } := by rw [← hrst, ← ha]
  have ht : { t with agenda := rest } = { t with rstN := true, agenda := rest } := by rw [← hrst']
  rw [hs, ht]
  exact h rest

/-! ### Loading a word -/

/-- Two words with the same lanes are equal (R52). -/
theorem eq_of_getLane_eq {v v' : Word} (h : ∀ j, getLane v j = getLane v' j) : v = v' := by
  apply BitVec.eq_of_getLsbD_eq
  intro k hk
  have hlane := congrArg (BitVec.getLsbD · (k % 32)) (h ⟨k / 32, by omega⟩)
  have hlt : k % 32 < 32 := Nat.mod_lt _ (by decide)
  simpa only [getLane, BitVec.getLsbD_extractLsb', hlt, decide_true, Bool.true_and, Nat.div_add_mod] using hlane

/-- A run over lane writes of W[n] alone leaves v's lanes there, and the block otherwise idle as it was (R52, R92). -/
theorem run_laneWrites (js : List (Fin 8)) {s : State} (n : Idx) (v : Word) (hb : s.busy = false)
    (hrst : s.rstN = true) (ha : s.agenda = js.map fun j => hostWrite (laneOffset n j) (getLane v j)) :
    ∃ t : State, Sys2Proof.core.run js.length s = .next t ∧
      (∀ j, getLane (t.word n) j = if j ∈ js then getLane v j else getLane (s.word n) j) ∧
      WordsSameExcept s t [n] ∧ t.agenda = [] ∧ t.busy = false := by
  induction js generalizing s with
  | nil => exact ⟨s, rfl, by simp, fun _ _ => rfl, ha, hb⟩
  | cons j js ih =>
    have hserve := serves_write s (laneOffset n j) (getLane v j) (laneOffset_aligned n j)
    rw [memWrite_lane_idle n j _ hb] at hserve
    have hstep := step_of_serves hserve hrst hrst ha
    obtain ⟨t, hrun, hlanes, hwords, hnil, hidle⟩ := ih (s := { s with
      w := setWord s.w n (setLane (s.word n) j (getLane v j)),
      agenda := js.map fun j => hostWrite (laneOffset n j) (getLane v j),
      resp := some .okWrite }) hb hrst rfl
    refine ⟨t, (core_run_succ _ hstep).trans hrun, fun k => ?_, fun m hm => ?_, hnil, hidle⟩
    · rw [hlanes k]
      simp only [State.word, getElem_setWord, if_true, getLane_setLane, List.mem_cons]
      by_cases hkj : k = j
      · simp [hkj]
      · simp [hkj]
    · have hne : m ≠ n := by simpa using hm
      rw [hwords m hm]
      simp only [State.word, getElem_setWord, if_neg hne]

/-- Settles O50: the eight writes are the lanes of one word, all of them. -/
theorem hostWriteLoadsTheWord : Obligations.HostWriteLoadsTheWord := by
  unfold Obligations.HostWriteLoadsTheWord
  intro s n v hb hrst ha
  obtain ⟨t, hrun, hlanes, hwords, hnil, hidle⟩ := run_laneWrites lanes n v hb hrst ha
  have hall : ∀ j, j ∈ lanes := by decide
  exact ⟨t, hrun, eq_of_getLane_eq fun j => by rw [hlanes j, if_pos (hall j)], hwords, hnil, hidle⟩

/-! ### Running a command -/

theorem statusPoll_serves (s : State) :
    Serves s (readTransfer 0x008#12) { s with resp := some (.data s.statusWord) } :=
  serves_read s 0x008#12 (by decide)

/-- Polls of STATUS leave nothing but their answer (R92). -/
theorem run_polls (polls : Nat) {s : State} (k : Nat) {rest : List Event} (hrst : s.rstN = true)
    (ha : s.agenda = List.replicate polls (hostRead 0x008#12) ++ rest) :
    ∃ r, Sys2Proof.core.run (polls + k) s = Sys2Proof.core.run k { s with agenda := rest, resp := r } := by
  induction polls generalizing s with
  | zero => exact ⟨s.resp, by rw [Nat.zero_add, ← show s.agenda = rest from ha]⟩
  | succ polls ih =>
    have hstep := step_of_serves (statusPoll_serves s) hrst hrst ha
    rw [Nat.add_right_comm, core_run_succ _ hstep]
    exact ih hrst rfl

/-- A busy block's step is its command when the Engine has the turn (R102, R103). -/
theorem step_of_busy {s : State} {i : Instr} (hrst : s.rstN = true) (hb : s.busy = true) (h : EngineNext s)
    (hi : decode s.lastcmd = .instr i) : step s = exec i { s with agenda := s.agenda.tail } := by
  rw [step_of_engineNext hrst h, engineTurn, if_pos hb, engineStep, hi]

/-- The block after `ISSUE c` (R92, R100), with `rest` on the agenda and `r` as the last answer. -/
def issued (s : State) (c : BusWord) (rest : List Event) (r : Option Response) : State :=
  { accept s c with agenda := rest, resp := r }

/-- Settles O51: acceptance and polls leave the operand words, so the completion is the command's on the words as they
stood. -/
theorem hostRunExecutesTheCommand : Obligations.HostRunExecutesTheCommand := by
  unfold Obligations.HostRunExecutesTheCommand
  intro s i polls hb hrst ha
  have hissue : step s = .next (issued s (encode i) (hostWait polls) (some .okWrite)) :=
    step_of_serves (serves_write_cmd_idle (encode i) hb) hrst hrst ha
  obtain ⟨r, hpolls⟩ := run_polls polls 2 (s := issued s (encode i) (hostWait polls) (some .okWrite)) hrst rfl
  obtain ⟨w, n, c, hexec, hexec'⟩ := exec_congr i s (issued s (encode i) [hostRead 0x008#12] r) rfl rfl rfl
  have hcomplete : step (issued s (encode i) [.engine, hostRead 0x008#12] r) =
      .next (finish { issued s (encode i) [hostRead 0x008#12] r with w := w, draws := n } c) :=
    (step_of_busy (s := issued s (encode i) [.engine, hostRead 0x008#12] r) hrst rfl (Or.inr ⟨_, rfl⟩)
      (decodeOfEncodeIsTheCommand i)).trans hexec'
  have hlast := step_of_serves (rest := [])
    (statusPoll_serves (finish { issued s (encode i) [hostRead 0x008#12] r with w := w, draws := n } c)) hrst hrst rfl
  have hrun := (core_run_succ (polls + 2) hissue).trans
    (hpolls.trans ((core_run_succ 1 hcomplete).trans (core_run_succ 0 hlast)))
  exact ⟨_, _, hexec, hrun, rfl, rfl, rfl, rfl, rfl, rfl, rfl, rfl⟩

end Sys2Proof.Proofs

/-! How commands are issued and completed: the Engine's turn, the frame of every command's completion, NOP, and the end
of every run. -/

namespace Sys2Proof.Proofs

open Sys2Proof.Machine Sys2Proof.Laws

/-! ### The Engine's turn -/

theorem engineTurn_busy {s : State} (hb : s.busy = true) : engineTurn s = engineStep s := if_pos hb

theorem engineTurn_idle {s : State} (hb : s.busy = false) : engineTurn s = .next s := if_neg (Bool.eq_false_iff.1 hb)

/-- With nothing more on the agenda, a block out of reset takes the Engine's turn (R106, R110). -/
theorem step_quiet {s : State} (ha : s.agenda = []) (hrst : s.rstN = true) : step s = engineTurn s := by
  rw [step_nil s ha, runQuiet, if_pos hrst]

/-- With nothing more on the agenda, a block in reset stays held at the reset values (R230). -/
theorem step_quiet_held {s : State} (ha : s.agenda = []) (hrst : s.rstN = false) : step s = .next (applyReset s) := by
  rw [step_nil s ha, runQuiet, if_neg (Bool.eq_false_iff.1 hrst)]

/-- An engine event out of reset is the Engine's turn (R102). -/
theorem step_engine {s : State} {rest : List Event} (ha : s.agenda = .engine :: rest) (hrst : s.rstN = true) :
    step s = engineTurn { s with agenda := rest } := by
  rw [step_of_engineNext hrst (Or.inr ⟨rest, ha⟩), ha, List.tail_cons]

/-- Settles O5: either way the Engine has the turn, and its turn is the decoded command when busy and nothing when
idle. -/
theorem engineTurnRunsDecodedCommand : Obligations.EngineTurnRunsDecodedCommand := by
  unfold Obligations.EngineTurnRunsDecodedCommand
  intro s i hrst hi
  refine ⟨fun hb ha => step_quiet_busy ha hrst hb hi, fun hb rest ha => ?_, fun hb ha => ?_, fun hb rest ha => ?_⟩
  · rw [step_of_busy hrst hb (Or.inr ⟨rest, ha⟩) hi, ha, List.tail_cons]
  · exact (step_quiet ha hrst).trans (engineTurn_idle hb)
  · exact (step_engine ha hrst).trans (engineTurn_idle (s := { s with agenda := rest }) hb)

/-! ### The frame of a completion -/

/-- The command completes and leaves everything but its own results as it was: with an error every operand word, without
one every word outside its destinations, and the draw counter unless it is PT_SMUL (R102, R105). -/
def CompletesInFrame (i : Instr) (s : State) : Prop :=
  ∃ t c, exec i s = .next t ∧ CompletedFrom s t c ∧ (c ≠ 0#4 → t.w = s.w ∧ t.draws = s.draws) ∧
    (c = 0#4 → WordsSameExcept s t (destinations i)) ∧ (t.draws ≠ s.draws → ∃ rd ra rb, i = .ptSmul rd ra rb)

theorem completesInFrame_of_endsWithError {i : Instr} {s : State} {e : ErrCode} (h : EndsWithError i s e) :
    CompletesInFrame i s := by
  obtain ⟨t, hexec, hdone, hdraws, hw⟩ := h
  have hcode : e.code ≠ 0#4 := by cases e <;> decide
  exact ⟨t, e.code, hexec, hdone, fun _ => ⟨hw, hdraws⟩, fun hc => absurd hc hcode, fun hd => absurd hdraws hd⟩

/-- Writes change no word but those they name. -/
theorem finish_applyWrites_sameExcept (s : State) (n : Nat) (ws : List (Idx × Word)) (c : BitVec 4) :
    WordsSameExcept s (finish { s with w := applyWrites s.w ws, draws := n } c) (ws.map Prod.fst) :=
  fun j hj => getElem_applyWrites_of_notMem s.w ws j hj

theorem completesInFrame_of_complete {i : Instr} {s : State} {n : Nat} {ws : List (Idx × Word)}
    (hn : n = s.draws ∨ (n = s.draws + 1 ∧ ∃ rd ra rb, i = .ptSmul rd ra rb))
    (hdest : ws.map Prod.fst = destinations i) (h : exec i s = complete { s with draws := n } ws) :
    CompletesInFrame i s := by
  refine ⟨_, 0#4, h, finish_completedFrom s (applyWrites s.w ws) n 0#4, fun hc => absurd rfl hc, fun _ => ?_,
    fun hd => ?_⟩
  · exact hdest ▸ finish_applyWrites_sameExcept s n ws 0#4
  · rcases hn with hn | ⟨-, hsmul⟩
    · exact absurd hn hd
    · exact hsmul

/-- Settles O9, by the ways a command can end: an error, or the writes of its destinations. -/
theorem everyCommandCompletes : Obligations.EveryCommandCompletes := by
  unfold Obligations.EveryCommandCompletes
  intro i s
  change CompletesInFrame i s
  rcases exec_cases i s with ⟨-, h⟩ | ⟨-, -, h⟩ | ⟨-, n, ws, hn, hdest, h⟩
  · exact completesInFrame_of_endsWithError (endsWithError_of_eq h)
  · exact completesInFrame_of_endsWithError (endsWithError_of_eq h)
  · exact completesInFrame_of_complete hn hdest h

/-! ### NOP -/

/-- Every word with OP = 0 and RSV = 0 is a NOP, whatever its operand fields (R87, R107). -/
theorem decode_eq_nop {c : BusWord} (hop : c.extractLsb' 0 8 = 0#8) (hrsv : c.extractLsb' 28 4 = 0#4) :
    decode c = .instr .nop := by
  have hop0 : fieldOP c = 0 := by rw [← extractLsb'_op, hop, BitVec.toNat_zero]
  rw [decode_eq_instr_iff, hop0]
  exact ⟨(extractLsb'_rsv c).1 hrsv, rfl⟩

/-- NOP is the completion that writes nothing (R107). -/
theorem exec_nop (s : State) : exec .nop s = .next (finish s 0#4) := rfl

/-- Settles O10; the run from reset is the acceptance of the word 0 and its completion. -/
theorem nopCompletes : Obligations.NopCompletes := by
  unfold Obligations.NopCompletes
  have hzero : decode 0x00000000#32 = .instr .nop := decode_eq_nop (by decide) (by decide)
  have hissue : step { State.reset with agenda := hostIssue 0x00000000#32 } =
      .next (issued State.reset 0x00000000#32 [] (some .okWrite)) :=
    step_of_serves (serves_write_cmd_idle 0x00000000#32 rfl) rfl rfl rfl
  have hnop : step (issued State.reset 0x00000000#32 [] (some .okWrite)) =
      .next (finish (issued State.reset 0x00000000#32 [] (some .okWrite)) 0#4) :=
    (step_quiet_busy rfl rfl rfl hzero).trans (exec_nop _)
  refine ⟨fun s => ⟨_, exec_nop s, finish_completedFrom s s.w s.draws 0#4, rfl, rfl⟩, fun c => ⟨decode_eq_nop,
    fun _ hrsv => (decoderRejectsExactlyReservedWords c).1.2 hrsv⟩, hzero, ?_⟩
  exact ⟨_, (core_run_succ 1 hissue).trans (core_run_succ 0 hnop), by decide, rfl⟩

/-! ### The end of a run -/

@[simp] theorem writeCtrl_agenda (s : State) (v : BusWord) : (writeCtrl s v).agenda = s.agenda := by
  unfold writeCtrl
  split <;> rfl

@[simp] theorem writeCommand_agenda (s : State) (c : BusWord) : (writeCommand s c).agenda = s.agenda := by
  unfold writeCommand
  split <;> rfl

/-- A transfer puts nothing on the agenda and takes nothing off it (log 1). -/
theorem busAccess_agenda (s : State) (tr : Transfer) : (busAccess s tr).agenda = s.agenda := by
  obtain ⟨s', r, he, hs⟩ := busAccess_cases s tr
  rw [he]
  rcases hs with rfl | ⟨-, rfl⟩ | ⟨-, -, ⟨-, rfl⟩ | ⟨-, rfl⟩ | ⟨-, rfl⟩ | ⟨n, j, -, -, rfl⟩⟩
  · rfl
  · rfl
  · exact writeCtrl_agenda s tr.wdata
  · rfl
  · exact writeCommand_agenda s tr.wdata
  · rfl

/-- Every step has a next state, and takes one event off the agenda (R61, R207). -/
theorem step_eq_next_tail (s : State) : ∃ t, step s = .next t ∧ t.agenda = s.agenda.tail := by
  rcases Bool.eq_false_or_eq_true s.rstN with hrst | hrst
  · rcases step_cases s hrst with ⟨-, hs⟩ | ⟨tr, rest, ha, hs⟩ | ⟨rest, ha, hs⟩ | ⟨rest, ha, hs⟩
    · rcases engineTurn_eq { s with agenda := s.agenda.tail } with ⟨-, he⟩ | ⟨-, w, n, c, -, he⟩
      · exact ⟨_, hs.trans he, rfl⟩
      · exact ⟨_, hs.trans he, rfl⟩
    · exact ⟨_, hs, by rw [busAccess_agenda, ha, List.tail_cons]⟩
    · exact ⟨_, hs, by rw [ha, List.tail_cons]⟩
    · exact ⟨_, hs, by rw [hardReset_agenda, ha, List.tail_cons]⟩
  · rcases step_of_reset s hrst with hs | hs
    · exact ⟨_, hs, rfl⟩
    · exact ⟨_, hs, rfl⟩

/-- As many steps as the agenda has events use it up. -/
theorem run_length_agenda (a : List Event) {s : State} (ha : s.agenda = a) :
    ∃ u : State, u.agenda = [] ∧ ∀ k, Sys2Proof.core.run (a.length + k) s = Sys2Proof.core.run k u := by
  induction a generalizing s with
  | nil => exact ⟨s, ha, fun k => by rw [List.length_nil, Nat.zero_add]⟩
  | cons e rest ih =>
    obtain ⟨t, hstep, ht⟩ := step_eq_next_tail s
    obtain ⟨u, hu, hrun⟩ := ih (ht.trans (by rw [ha, List.tail_cons]))
    refine ⟨u, hu, fun k => ?_⟩
    rw [List.length_cons, Nat.add_right_comm, core_run_succ _ hstep]
    exact hrun k

/-- The step after the last event, by what it finds: a busy block, an idle one, one held in reset (R106, R110, R230). -/
theorem step_quiet_endsIdle {u : State} (ha : u.agenda = []) :
    ∃ t, step u = .next t ∧ t.agenda = [] ∧ t.busy = false ∧
      (u.rstN = true → u.busy = true → engineStep u = .next t ∧ t.done = true) ∧
      (u.rstN = true → u.busy = false → t = u) ∧ (u.rstN = false → AtReset t) := by
  rcases Bool.eq_false_or_eq_true u.rstN with hrst | hrst
  · rcases Bool.eq_false_or_eq_true u.busy with hb | hb
    · obtain ⟨w, n, c, -, he⟩ := engineStep_eq_finish u
      exact ⟨_, ((step_quiet ha hrst).trans (engineTurn_busy hb)).trans he, ha, rfl, fun _ _ => ⟨he, rfl⟩,
        fun _ hidle => by simp [hb] at hidle, fun hlow => by simp [hrst] at hlow⟩
    · exact ⟨u, (step_quiet ha hrst).trans (engineTurn_idle hb), ha, hb, fun _ hbusy => by simp [hb] at hbusy,
        fun _ _ => rfl, fun hlow => by simp [hrst] at hlow⟩
  · exact ⟨_, step_quiet_held ha hrst, ha, rfl, fun hhigh => by simp [hrst] at hhigh,
      fun hhigh => by simp [hrst] at hhigh, fun _ => applyReset_atReset u⟩

/-- Settles O59: the events of the agenda use it up, and one step more finds the block busy, idle or held in reset. -/
theorem everyRunEndsIdle : Obligations.EveryRunEndsIdle := by
  unfold Obligations.EveryRunEndsIdle
  intro s
  obtain ⟨u, hu, hrun⟩ := run_length_agenda s.agenda rfl
  obtain ⟨t, hstep, ht, hidle, hcases⟩ := step_quiet_endsIdle hu
  exact ⟨u, t, hrun 0, hu, (hrun 1).trans (core_run_succ 0 hstep), ht, hidle, hcases⟩

end Sys2Proof.Proofs

/-! The field commands: what each arithmetic command and the selection write, the inverse, and FE_POW's special
exponents. -/

namespace Sys2Proof.Proofs

open Sys2Proof.Machine Sys2Proof.Laws

/-! ### What each command writes -/

/-- A canonical result is written as it is (R120). -/
theorem writesWord_of_lt_p {i : Instr} {s : State} {rd : Idx} {n : Nat}
    (h : exec i s = complete s (wordWrite rd (toWord n))) (hn : n < p) : WritesWord i s rd n :=
  writesWord_toWord h (hn.trans (p_lt_two_pow_255.trans (by decide)))

theorem feAdd_writesWord (rd ra rb : Idx) (s : State) :
    WritesWord (.feAdd rd ra rb) s rd (fadd (s.uint ra) (s.uint rb)) := writesWord_of_lt_p rfl (fadd_lt _ _)

theorem feSub_writesWord (rd ra rb : Idx) (s : State) :
    WritesWord (.feSub rd ra rb) s rd (fsub (s.uint ra) (s.uint rb)) := writesWord_of_lt_p rfl (fsub_lt _ _)

theorem feMul_writesWord (rd ra rb : Idx) (s : State) :
    WritesWord (.feMul rd ra rb) s rd (fmul (s.uint ra) (s.uint rb)) := writesWord_of_lt_p rfl (fmul_lt _ _)

theorem feSqr_writesWord (rd ra : Idx) (s : State) :
    WritesWord (.feSqr rd ra) s rd (fmul (s.uint ra) (s.uint ra)) := writesWord_of_lt_p rfl (fmul_lt _ _)

theorem feInv_writesWord (rd ra : Idx) (s : State) :
    WritesWord (.feInv rd ra) s rd (finv (s.uint ra)) := writesWord_of_lt_p rfl (finv_lt _)

theorem fePow_writesWord (rd ra rb : Idx) (s : State) :
    WritesWord (.fePow rd ra rb) s rd (fpow (s.uint ra) (s.uint rb)) := writesWord_of_lt_p rfl (fpow_lt _ _)

/-- FE_POW as a completion, whose exponent can be rewritten (R126). -/
theorem exec_fePow (rd ra rb : Idx) (s : State) :
    exec (.fePow rd ra rb) s = complete s (wordWrite rd (toWord (fpow (s.uint ra) (s.uint rb)))) := rfl

theorem uint_lt (s : State) (i : Idx) : s.uint i < 2 ^ 256 := (s.word i).isLt

/-- Settles O15: FE_INV's function is the integer power. -/
theorem feInvWritesPower : Obligations.FeInvWritesPower := by
  unfold Obligations.FeInvWritesPower
  intro rd ra s
  exact finv_eq (s.uint ra) ▸ feInv_writesWord rd ra s

/-- Settles O16: FE_POW's function is the integer power for every exponent that a word holds. -/
theorem fePowWritesPower : Obligations.FePowWritesPower := by
  unfold Obligations.FePowWritesPower
  intro rd ra rb s
  exact fpow_eq (s.uint ra) (s.uint rb) (uint_lt s rb) ▸ fePow_writesWord rd ra rb s

/-- Settles O11: FE_ADD's function is the sum over the integers, reduced once. -/
theorem feAddWritesSum : Obligations.FeAddWritesSum := by
  unfold Obligations.FeAddWritesSum
  intro rd ra rb s
  exact ⟨feAdd_writesWord rd ra rb s, fieldOP_pack _ rd ra rb 0 (opcode_lt (.feAdd rd ra rb))⟩

/-- Settles O12: p minus the reduced subtrahend stands for its negative. -/
theorem feSubWritesDifference : Obligations.FeSubWritesDifference := by
  unfold Obligations.FeSubWritesDifference
  intro rd ra rb s
  rw [← fsub_eq_int, Int.toNat_natCast]
  exact ⟨feSub_writesWord rd ra rb s, fieldOP_pack _ rd ra rb 0 (opcode_lt (.feSub rd ra rb))⟩

/-- Settles O13: FE_MUL's function is the product over the integers, reduced once. -/
theorem feMulWritesProduct : Obligations.FeMulWritesProduct := by
  unfold Obligations.FeMulWritesProduct
  exact feMul_writesWord

/-- Settles O14: both commands complete with the same write. -/
theorem feSqrWritesSquare : Obligations.FeSqrWritesSquare := by
  unfold Obligations.FeSqrWritesSquare
  intro rd ra s
  exact ⟨feSqr_writesWord rd ra s, rfl, fieldOP_pack _ rd ra 0 0 (opcode_lt (.feSqr rd ra))⟩

/-! ### Selection -/

/-- Bit 0 of a word is the parity of its value. -/
theorem word_getLsbD_zero (s : State) (i : Idx) : (s.word i).getLsbD 0 = decide (s.uint i % 2 = 1) :=
  Nat.testBit_zero (s.uint i)

/-- FE_CSEL as a completion, the selection by the parity of the flag word (R127). -/
theorem exec_feCsel (rd ra rb rc : Idx) (s : State) : exec (.feCsel rd ra rb rc) s =
    complete s (wordWrite rd (if s.uint rc % 2 = 1 then s.word rb else s.word ra)) := by
  simp only [exec, execFeCsel, word_getLsbD_zero, decide_eq_true_eq]

/-- Settles O17, by the two parities of the flag word. -/
theorem feCselCopiesSelectedWord : Obligations.FeCselCopiesSelectedWord := by
  unfold Obligations.FeCselCopiesSelectedWord
  intro rd ra rb rc s
  refine ⟨fun hodd => writesWord_of_eq ?_, fun heven => writesWord_of_eq ?_⟩
  · rw [exec_feCsel, if_pos hodd]
  · rw [exec_feCsel, if_neg (by omega)]

/-! ### Consequences of a word write -/

/-- The state a word write answers holds the value in the destination, and every other word as it was. -/
theorem uint_of_writesWord {i : Instr} {s t : State} {rd : Idx} {v : Nat} (h : WritesWord i s rd v)
    (ht : exec i s = .next t) : t.uint rd = v ∧ ∀ j, j ≠ rd → t.uint j = s.uint j := by
  obtain ⟨t', ht', -, -, hsame, hv⟩ := h
  obtain rfl : t' = t := Host.Outcome.next.inj (ht'.symm.trans ht)
  exact ⟨hv, fun j hj => congrArg BitVec.toNat (hsame j (by simpa using hj))⟩

/-- Settles O18: the product is of the word, which FE_INV leaves as it was, and its inverse. -/
theorem feInvIsTheInverse : Obligations.FeInvIsTheInverse := by
  unfold Obligations.FeInvIsTheInverse
  intro rd ra re s t u hne ht hu
  obtain ⟨hinv, hother⟩ := uint_of_writesWord (feInv_writesWord rd ra s) ht
  obtain ⟨hprod, -⟩ := uint_of_writesWord (feMul_writesWord re ra rd t) hu
  rw [hinv, hother ra hne.symm] at hprod
  rw [hprod]
  refine ⟨fmul_finv (s.uint ra), fun hzero => ?_⟩
  rw [finv_of_zero _ hzero, fmul, Nat.mul_zero, Nat.zero_mod]

/-- A value below p, written to a word, leaves it canonical with bit 255 clear (R120). -/
theorem canonical_of_writesWord {i : Instr} {s : State} {rd : Idx} {v : Nat} (h : WritesWord i s rd v) (hv : v < p) :
    ∃ t, exec i s = .next t ∧ t.err = 0#4 ∧ t.uint rd < p ∧ (t.word rd).getLsbD 255 = false := by
  obtain ⟨t, ht, hdone, -, -, rfl⟩ := h
  exact ⟨t, ht, hdone.err, hv, Nat.testBit_lt_two_pow (hv.trans p_lt_two_pow_255)⟩

/-- Settles O19: each of the six commands writes the value of a function below p. -/
theorem fieldResultsAreCanonical : Obligations.FieldResultsAreCanonical := by
  unfold Obligations.FieldResultsAreCanonical
  intro rd ra rb i s hi
  rcases hi with rfl | rfl | rfl | rfl | rfl | rfl
  · exact canonical_of_writesWord (feAdd_writesWord rd ra rb s) (fadd_lt _ _)
  · exact canonical_of_writesWord (feSub_writesWord rd ra rb s) (fsub_lt _ _)
  · exact canonical_of_writesWord (feMul_writesWord rd ra rb s) (fmul_lt _ _)
  · exact canonical_of_writesWord (feSqr_writesWord rd ra s) (fmul_lt _ _)
  · exact canonical_of_writesWord (feInv_writesWord rd ra s) (finv_lt _)
  · exact canonical_of_writesWord (fePow_writesWord rd ra rb s) (fpow_lt _ _)

/-! ### The special exponents of FE_POW -/

theorem fpow_two (a : Nat) : fpow a 2 = fmul a a := by rw [fpow_eq a 2 (by decide), sq, fmul]

theorem fpow_one (a : Nat) : fpow a 1 = a % p := by rw [fpow_eq a 1 (by decide), pow_one]

theorem fpow_zero (a : Nat) : fpow a 0 = 1 := by rw [fpow_eq a 0 (by decide), pow_zero, Nat.mod_eq_of_lt one_lt_p]

/-- Settles O20, by FE_POW's function at the four exponents; at p-2 it is the definition of FE_INV's. -/
theorem fePowSpecialExponents : Obligations.FePowSpecialExponents := by
  unfold Obligations.FePowSpecialExponents
  intro rd ra rb s
  have hpow := fePow_writesWord rd ra rb s
  refine ⟨fun he => ?_, fun he => ?_, fun he => ?_, fun he => ?_⟩
  · rw [exec_fePow, he]
    rfl
  · rw [exec_fePow, he, fpow_two]
    rfl
  · rwa [he, fpow_one] at hpow
  · rwa [he, fpow_zero] at hpow

end Sys2Proof.Proofs

/-! The scalar commands: reduction and multiply-add mod L, and clamping bit by bit. -/

namespace Sys2Proof.Proofs

open Sys2Proof.Machine Sys2Proof.Laws

/-! ### Clamping -/

/-- The cleared low bits. -/
theorem getLsbD_seven {k : Nat} (hk : k < 256) : (7#256).getLsbD k = decide (k < 3) := by
  rw [BitVec.getLsbD_ofNat, decide_eq_true hk, Bool.true_and]
  exact Nat.testBit_two_pow_sub_one 3 k

/-- A word with one bit set. -/
theorem getLsbD_one_shiftLeft {n k : Nat} (hk : k < 256) : (1#256 <<< n).getLsbD k = decide (k = n) := by
  rw [← BitVec.twoPow_eq, BitVec.getLsbD_twoPow]
  by_cases h : k = n
  · simp [← h, hk]
  · simp [h, Ne.symm h]

/-- Clamping bit by bit (R143). -/
theorem getLsbD_clamp (a : Word) {k : Nat} (hk : k < 256) : (clamp a).getLsbD k =
    if k < 3 then false else if k = 255 then false else if k = 254 then true else a.getLsbD k := by
  have hbits : (clamp a).getLsbD k = (a.getLsbD k && !(decide (k < 3) || decide (k = 255)) || decide (k = 254)) := by
    simp only [clamp, BitVec.getLsbD_or, BitVec.getLsbD_and, BitVec.getLsbD_not, getLsbD_seven hk,
      getLsbD_one_shiftLeft hk, decide_eq_true hk, Bool.true_and]
  rw [hbits]
  split_ifs with hlow htop hset
  · simp [hlow, show k ≠ 254 by omega]
  · simp [htop]
  · simp [hset]
  · simp [hlow, htop, hset]

/-- Bit 254 is set (R143). -/
theorem two_pow_254_le_clamp (a : Word) : 2 ^ 254 ≤ (clamp a).toNat :=
  Nat.ge_two_pow_of_testBit (getLsbD_clamp a (k := 254) (by decide))

/-- Bit 255 is clear (R143). -/
theorem clamp_lt_two_pow_255 (a : Word) : (clamp a).toNat < 2 ^ 255 := by
  have hmsb : (clamp a).msb = false := (BitVec.msb_eq_getLsbD_last _).trans (getLsbD_clamp a (by decide))
  have hlt := BitVec.msb_eq_false_iff_two_mul_lt.1 hmsb
  omega

/-- Bits 2:0 are clear (R143). -/
theorem clamp_mod_eight (a : Word) : (clamp a).toNat % 8 = 0 := by
  refine Nat.zero_of_testBit_eq_false fun k => (Nat.testBit_mod_two_pow (clamp a).toNat 3 k).trans ?_
  rcases Nat.lt_or_ge k 3 with hk | hk
  · rw [← BitVec.getLsbD, getLsbD_clamp a (by omega), if_pos hk, Bool.and_false]
  · rw [decide_eq_false (by omega), Bool.false_and]

/-- Every bit that clamping forces is already as forced (R143). -/
theorem clamp_clamp (a : Word) : clamp (clamp a) = clamp a := by
  refine BitVec.eq_of_getLsbD_eq fun k hk => ?_
  rw [getLsbD_clamp (clamp a) hk, getLsbD_clamp a hk]
  split_ifs <;> rfl

theorem scClamp_writesWord (rd ra : Idx) (s : State) :
    WritesWord (.scClamp rd ra) s rd (clamp (s.word ra)).toNat := writesWord_of_eq rfl

/-- Settles O24: the word written is the clamped source, and the rest is said of `clamp` bit by bit. -/
theorem scClampForcesBits : Obligations.ScClampForcesBits := by
  unfold Obligations.ScClampForcesBits
  intro rd ra s
  obtain ⟨t, hexec, hdone, hdraws, hsame, hvalue⟩ := scClamp_writesWord rd ra s
  obtain ⟨hop, -⟩ := EncodeShape.scClamp rd ra
  have hword : t.word rd = clamp (s.word ra) := BitVec.eq_of_toNat_eq hvalue
  refine ⟨t, hexec, hdone, hdraws, hsame, ?_⟩
  rw [State.uint, hword]
  refine ⟨fun k => getLsbD_clamp (s.word ra), two_pow_254_le_clamp _, clamp_lt_two_pow_255 _, clamp_mod_eight _,
    fun re => ?_, hop⟩
  have hagain := scClamp_writesWord re rd t
  rwa [hword, clamp_clamp] at hagain

/-! ### Results mod L -/

/-- A residue mod L fits in a word, and is written as it is (R140). -/
theorem writesWord_mod_L {i : Instr} {s : State} {rd : Idx} {n : Nat}
    (h : exec i s = complete s (wordWrite rd (toWord (n % L)))) : WritesWord i s rd (n % L) :=
  writesWord_toWord h ((Nat.mod_lt n (by decide)).trans (by decide))

theorem pairAligned_iff (i : Idx) : pairAligned i = true ↔ i.val % 2 = 0 := beq_iff_eq

/-- Settles O22: an even RA passes the check and its pair is reduced; an odd RA makes the command ill-formed. -/
theorem scRed512WritesResidue : Obligations.ScRed512WritesResidue := by
  unfold Obligations.ScRed512WritesResidue
  intro rd ra s
  obtain ⟨hop, -⟩ := EncodeShape.scRed512 rd ra
  refine ⟨fun heven => ?_, fun hodd => ?_, hop⟩
  · exact writesWord_mod_L (if_pos ((pairAligned_iff ra).2 heven))
  · have hill : (Instr.scRed512 rd ra).wellFormed = false := (namesPair_eq_false_iff ra).2 hodd
    exact endsWithError_of_eq (exec_of_not_wellFormed hill s)

theorem scMuladd_writesWord (rd ra rb rc : Idx) (s : State) :
    WritesWord (.scMuladd rd ra rb rc) s rd ((s.uint ra * s.uint rb + s.uint rc) % L) := writesWord_mod_L rfl

/-- Settles O23: reducing a, b and c first does not change the residue of a*b + c. -/
theorem scMuladdWritesResidue : Obligations.ScMuladdWritesResidue := by
  unfold Obligations.ScMuladdWritesResidue
  intro rd ra rb rc s
  obtain ⟨hop, -⟩ := EncodeShape.scMuladd rd ra rb rc
  refine ⟨scMuladd_writesWord rd ra rb rc s, ?_, hop⟩
  rw [Nat.add_mod, Nat.mul_mod, Nat.add_mod (_ * _), Nat.mod_mod]

end Sys2Proof.Proofs

/-! The point commands: what each of them writes, the laws of R176 between them, and the multiples of the base point. -/

namespace Sys2Proof.Proofs

open Sys2Proof.Machine Sys2Proof.Laws

/-! ### Canonical coordinates -/

/-- The four coordinates are below p, as every point command writes them (R160). -/
structure CanonicalExt (e : Ext) : Prop where
  x : e.x < p
  y : e.y < p
  z : e.z < p
  t : e.t < p

theorem extAdd_canonical (a b : Ext) : CanonicalExt (extAdd a b) :=
  ⟨fmul_lt _ _, fmul_lt _ _, fmul_lt _ _, fmul_lt _ _⟩

theorem extDbl_canonical (a : Ext) : CanonicalExt (extDbl a) :=
  ⟨fmul_lt _ _, fmul_lt _ _, fmul_lt _ _, fmul_lt _ _⟩

theorem normPoint_canonical {q : Affine} (hq : Canonical q) : CanonicalExt (normPoint q) :=
  ⟨hq.1, hq.2, one_lt_p, fmul_lt _ _⟩

theorem lt_two_pow_256_of_lt_p {n : Nat} (h : n < p) : n < 2 ^ 256 :=
  h.trans (p_lt_two_pow_255.trans (by decide))

theorem toNat_ofNat_of_lt_p {n : Nat} (h : n < p) : (BitVec.ofNat 256 n).toNat = n :=
  (BitVec.toNat_ofNat n 256).trans (Nat.mod_eq_of_lt (lt_two_pow_256_of_lt_p h))

/-- Reading back words that hold canonical coordinates reduces nothing (R160). -/
theorem extOf_eq {pw : PointWords} {e : Ext} (he : CanonicalExt e) (hx : pw.x.toNat = e.x) (hy : pw.y.toNat = e.y)
    (hz : pw.z.toNat = e.z) (ht : pw.t.toNat = e.t) : extOf pw = e := by
  rw [extOf, hx, hy, hz, ht, Nat.mod_eq_of_lt he.x, Nat.mod_eq_of_lt he.y, Nat.mod_eq_of_lt he.z,
    Nat.mod_eq_of_lt he.t]

theorem extOf_wordsOf {e : Ext} (he : CanonicalExt e) : extOf (wordsOf e) = e :=
  extOf_eq he (toNat_ofNat_of_lt_p he.x) (toNat_ofNat_of_lt_p he.y) (toNat_ofNat_of_lt_p he.z)
    (toNat_ofNat_of_lt_p he.t)

/-! ### Slot writes -/

theorem writesSlot_of_canonical {i : Instr} {s : State} {rd : Idx} {e : Ext} (he : CanonicalExt e)
    (h : exec i s = complete s (slotWrites rd (wordsOf e))) : WritesSlot i s rd e :=
  writesSlot_of_eq h (lt_two_pow_256_of_lt_p he.x) (lt_two_pow_256_of_lt_p he.y) (lt_two_pow_256_of_lt_p he.z)
    (lt_two_pow_256_of_lt_p he.t)

/-- The state a slot write answers holds the coordinates in the slot. -/
theorem exists_slot_of_writesSlot {i : Instr} {s : State} {rd : Idx} {e : Ext} (he : CanonicalExt e)
    (h : WritesSlot i s rd e) : ∃ t, exec i s = .next t ∧ t.err = 0#4 ∧ extOf (t.slot rd) = e := by
  obtain ⟨t, hexec, hdone, -, -, hx, hy, hz, ht⟩ := h
  exact ⟨t, hexec, hdone.err, extOf_eq he hx hy hz ht⟩

/-- A slot write whose coordinates are integers mod p (R7, R170, R171). -/
theorem writesInts_of_writesSlot {i : Instr} {s : State} {rd : Idx} {e : Ext} {X Y Z T : Int} (he : CanonicalExt e)
    (h : WritesSlot i s rd e) (hX : (e.x : ZMod p) = X) (hY : (e.y : ZMod p) = Y) (hZ : (e.z : ZMod p) = Z)
    (hT : (e.t : ZMod p) = T) :
    ∃ t, exec i s = .next t ∧ CompletedFrom s t 0#4 ∧ t.draws = s.draws ∧ WordsSameExcept s t (slotIndices rd) ∧
      (t.uint rd : Int) = X % p ∧ (t.uint (rd + 1) : Int) = Y % p ∧ (t.uint (rd + 2) : Int) = Z % p ∧
      (t.uint (rd + 3) : Int) = T % p := by
  obtain ⟨t, hexec, hdone, hdraws, hsame, hx, hy, hz, ht⟩ := h
  refine ⟨t, hexec, hdone, hdraws, hsame, ?_, ?_, ?_, ?_⟩
  · exact (congrArg _ hx).trans (eq_emod_of_cast he.x hX)
  · exact (congrArg _ hy).trans (eq_emod_of_cast he.y hY)
  · exact (congrArg _ hz).trans (eq_emod_of_cast he.z hZ)
  · exact (congrArg _ ht).trans (eq_emod_of_cast he.t hT)

/-- A completion that writes a slot leaves the words in it. -/
theorem slot_finish_slotWrites (s : State) (w : Vector Word 32) (n : Nat) (rd : Idx) (pw : PointWords)
    (c : BitVec 4) : (finish { s with w := applyWrites w (slotWrites rd pw), draws := n } c).slot rd = pw := by
  obtain ⟨n01, n02, n03, n12, n13, n23⟩ := slotIndices_nodup rd
  simp [State.slot, State.word, getElem_slotWrites, *]

/-! ### Addition and doubling -/

theorem pointAligned_iff (i : Idx) : pointAligned i = true ↔ i.val % 4 = 0 := beq_iff_eq

/-- The check of a command with two slots (R88). -/
theorem pointAligned_both {i j : Idx} (hi : i.val % 4 = 0) (hj : j.val % 4 = 0) :
    (pointAligned i && pointAligned j) = true :=
  Bool.and_eq_true_iff.2 ⟨(pointAligned_iff i).2 hi, (pointAligned_iff j).2 hj⟩

theorem ptAdd_writesSlot {rd ra rb : Idx} (hd : rd.val % 4 = 0) (ha : ra.val % 4 = 0) (hb : rb.val % 4 = 0)
    (s : State) : WritesSlot (.ptAdd rd ra rb) s rd (extAdd (extOf (s.slot ra)) (extOf (s.slot rb))) := by
  have hal : (pointAligned rd && pointAligned ra && pointAligned rb) = true :=
    Bool.and_eq_true_iff.2 ⟨pointAligned_both hd ha, (pointAligned_iff rb).2 hb⟩
  exact writesSlot_of_canonical (extAdd_canonical _ _) (if_pos hal)

theorem ptDbl_writesSlot {rd ra : Idx} (hd : rd.val % 4 = 0) (ha : ra.val % 4 = 0) (s : State) :
    WritesSlot (.ptDbl rd ra) s rd (extDbl (extOf (s.slot ra))) :=
  writesSlot_of_canonical (extDbl_canonical _) (if_pos (pointAligned_both hd ha))

section

variable (s : State) (i : Idx)

theorem cast_extOf_x : ((extOf (s.slot i)).x : ZMod p) = s.uint i := ZMod.natCast_mod _ _
theorem cast_extOf_y : ((extOf (s.slot i)).y : ZMod p) = s.uint (i + 1) := ZMod.natCast_mod _ _
theorem cast_extOf_z : ((extOf (s.slot i)).z : ZMod p) = s.uint (i + 2) := ZMod.natCast_mod _ _
theorem cast_extOf_t : ((extOf (s.slot i)).t : ZMod p) = s.uint (i + 3) := ZMod.natCast_mod _ _

end

/-- Settles O25: each coordinate of the model's formulas is R170's as an element of GF(p). -/
theorem ptAddWritesFormulas : Obligations.PtAddWritesFormulas := by
  unfold Obligations.PtAddWritesFormulas
  intro rd ra rb s hd ha hb
  refine writesInts_of_writesSlot (extAdd_canonical _ _) (ptAdd_writesSlot hd ha hb s) ?_ ?_ ?_ ?_ <;>
  · simp only [extAdd, cast_fmul, cast_fadd, cast_fsub, cast_curve2D, cast_extOf_x, cast_extOf_y, cast_extOf_z,
      cast_extOf_t]
    push_cast
    rfl

/-- Settles O26: each coordinate of the model's formulas is R171's as an element of GF(p). -/
theorem ptDblWritesFormulas : Obligations.PtDblWritesFormulas := by
  unfold Obligations.PtDblWritesFormulas
  intro rd ra s hd ha
  refine writesInts_of_writesSlot (extDbl_canonical _) (ptDbl_writesSlot hd ha s) ?_ ?_ ?_ ?_ <;>
  · simp only [extDbl, cast_fmul, cast_fadd, cast_fsub, cast_extOf_x, cast_extOf_y, cast_extOf_z]
    push_cast
    rfl

/-- Settles O27, by the formulas' law on valid points. -/
theorem ptAddAddsPoints : Obligations.PtAddAddsPoints := by
  unfold Obligations.PtAddAddsPoints
  intro rd ra rb s hd ha hb hva hvb
  obtain ⟨hvalid, haff⟩ := extAdd_spec hva hvb
  obtain ⟨t, hexec, herr, hslot⟩ :=
    exists_slot_of_writesSlot (extAdd_canonical _ _) (ptAdd_writesSlot hd ha hb s)
  exact ⟨t, hexec, herr, hslot ▸ hvalid, hslot ▸ haff⟩

theorem nsmul_two_eq_affAdd {q : Affine} (hq : Canonical q) : nsmul 2 q = affAdd q q := by
  rw [nsmul, nsmul, nsmul, affAdd_comm identity, affAdd_identity hq]

/-- Settles O28, by the formulas' law on a valid point; 2·Q is Q + Q. -/
theorem ptDblDoublesPoint : Obligations.PtDblDoublesPoint := by
  unfold Obligations.PtDblDoublesPoint
  intro rd ra s hd ha hva
  obtain ⟨hvalid, haff⟩ := extDbl_spec hva
  obtain ⟨t, hexec, herr, hslot⟩ := exists_slot_of_writesSlot (extDbl_canonical _) (ptDbl_writesSlot hd ha s)
  rw [nsmul_two_eq_affAdd (aff_canonical _)]
  exact ⟨t, hexec, herr, hslot ▸ hvalid, hslot ▸ haff, hslot ▸ haff⟩

/-! ### Multiples -/

/-- PT_SMUL of a valid slot as a completion, with R163's multiple (R172). -/
theorem exec_ptSmul_of_valid {rd ra : Idx} (hd : rd.val % 4 = 0) (ha : ra.val % 4 = 0) (rb : Idx) {s : State}
    (hv : validPoint (extOf (s.slot ra)) = true) : exec (.ptSmul rd ra rb) s =
      complete s (slotWrites rd (wordsOf (normPoint (nsmul (s.uint rb) (aff (extOf (s.slot ra))))))) := by
  rw [← smul_eq_nsmul _ (uint_lt s rb) (aff_canonical _) (onCurve_aff hv)]
  exact (if_pos (pointAligned_both hd ha)).trans (if_pos hv)

/-- PT_SMUL of an invalid slot as a completion, with the next draw (R172). -/
theorem exec_ptSmul_of_invalid {rd ra : Idx} (hd : rd.val % 4 = 0) (ha : ra.val % 4 = 0) (rb : Idx) {s : State}
    (hv : validPoint (extOf (s.slot ra)) = false) : exec (.ptSmul rd ra rb) s =
      complete { s with draws := s.draws + 1 }
        (slotWrites rd (Config.smulInvalid s.draws (s.slot ra) (s.word rb))) :=
  (if_pos (pointAligned_both hd ha)).trans (if_neg (Bool.eq_false_iff.1 hv))

/-- PT_SMULB as a completion, with R163's multiple (R173). -/
theorem exec_ptSmulb {rd : Idx} (hd : rd.val % 4 = 0) (ra : Idx) (s : State) : exec (.ptSmulb rd ra) s =
    complete s (slotWrites rd (wordsOf (normPoint (nsmul (s.uint ra) basePoint)))) := by
  rw [← smul_eq_nsmul _ (uint_lt s ra) basePoint_canonical basePoint_onCurve]
  exact if_pos ((pointAligned_iff rd).2 hd)

/-- Settles O29: doubling and adding computes R163's multiple. -/
theorem ptSmulWritesNormalisedMultiple : Obligations.PtSmulWritesNormalisedMultiple := by
  unfold Obligations.PtSmulWritesNormalisedMultiple
  intro rd ra rb s hd ha hv
  exact writesSlot_of_canonical (normPoint_canonical (nsmul_canonical _ _)) (exec_ptSmul_of_valid hd ha rb hv)

theorem ptSmulb_writesSlot {rd : Idx} (hd : rd.val % 4 = 0) (ra : Idx) (s : State) :
    WritesSlot (.ptSmulb rd ra) s rd (normPoint (nsmul (s.uint ra) basePoint)) :=
  writesSlot_of_canonical (normPoint_canonical (nsmul_canonical _ _)) (exec_ptSmulb hd ra s)

/-- Settles O31: doubling and adding computes R163's multiple of the base point. -/
theorem ptSmulbWritesNormalisedMultiple : Obligations.PtSmulbWritesNormalisedMultiple := by
  unfold Obligations.PtSmulbWritesNormalisedMultiple
  exact fun rd ra s hd => ptSmulb_writesSlot hd ra s

/-- Settles O30: the slot holds the draw, and the completion's frame is that of every slot write. -/
theorem ptSmulDrawsForInvalidPoint : Obligations.PtSmulDrawsForInvalidPoint := by
  unfold Obligations.PtSmulDrawsForInvalidPoint
  intro rd ra rb s hd ha hv
  exact ⟨_, exec_ptSmul_of_invalid hd ha rb hv, finish_completedFrom s _ (s.draws + 1) 0#4, rfl,
    finish_applyWrites_sameExcept s (s.draws + 1) (slotWrites rd _) 0#4,
    slot_finish_slotWrites s s.w (s.draws + 1) rd _ 0#4⟩

/-- Settles O32: norm(B) is a valid slot that represents B. -/
theorem ptSmulbIsPtSmulOfTheBasePoint : Obligations.PtSmulbIsPtSmulOfTheBasePoint := by
  unfold Obligations.PtSmulbIsPtSmulOfTheBasePoint
  intro rd ra rb s hd ha hbase
  have hext : extOf (s.slot ra) = normPoint basePoint :=
    hbase ▸ extOf_wordsOf (normPoint_canonical basePoint_canonical)
  have hv : validPoint (extOf (s.slot ra)) = true := hext ▸ norm_valid basePoint_onCurve
  rw [exec_ptSmul_of_valid hd ha rb hv, exec_ptSmulb hd, hext, aff_norm basePoint_canonical]

/-! ### The order of the base point -/

/-- A multiple of L·B is the identity (R13). -/
theorem nsmul_L_mul_basePoint (m : Nat) : nsmul (L * m) basePoint = identity := by
  induction m with
  | zero => rfl
  | succ m ih =>
    rw [Nat.mul_succ, nsmul_add _ _ basePoint_onCurve, ih, nsmul_L_basePoint, affAdd_identity identity_canonical]

theorem nsmul_basePoint_mod_L (k : Nat) : nsmul k basePoint = nsmul (k % L) basePoint := by
  conv_lhs => rw [← Nat.mod_add_div k L]
  rw [nsmul_add _ _ basePoint_onCurve, nsmul_L_mul_basePoint, affAdd_identity (nsmul_canonical _ _)]

/-- Settles O33: the multiple written is that by the scalar mod L, and 0·B is the identity. -/
theorem baseMultiplesDependOnScalarModL : Obligations.BaseMultiplesDependOnScalarModL := by
  unfold Obligations.BaseMultiplesDependOnScalarModL
  intro rd ra ra' s hd
  refine ⟨fun heq => ?_, fun hzero => ?_⟩
  · rw [exec_ptSmulb hd, exec_ptSmulb hd, nsmul_basePoint_mod_L, heq, ← nsmul_basePoint_mod_L]
  · have hw := ptSmulb_writesSlot hd ra s
    rwa [nsmul_basePoint_mod_L, hzero] at hw

/-! ### Encoding a slot -/

theorem ptEnc_writesWord {ra : Idx} (ha : ra.val % 4 = 0) (rd : Idx) (s : State) :
    WritesWord (.ptEnc rd ra) s rd (encodePoint (aff (extOf (s.slot ra)))).toNat :=
  writesWord_of_eq (if_pos ((pointAligned_iff ra).2 ha))

/-- The state PT_ENC answers, with the encoding in the destination word. -/
theorem exec_ptEnc_eq_next {ra : Idx} (ha : ra.val % 4 = 0) (rd : Idx) (s : State) :
    ∃ t, exec (.ptEnc rd ra) s = .next t ∧ t.drso = s.drso ∧ t.word rd = encodePoint (aff (extOf (s.slot ra))) := by
  obtain ⟨t, hexec, hdone, -, -, hval⟩ := ptEnc_writesWord ha rd s
  exact ⟨t, hexec, hdone.drso, BitVec.eq_of_toNat_eq hval⟩

/-- The quotient of two reduced numbers, as an integer power reduced once (R8). -/
theorem fmul_finv_mod (a b : Nat) : fmul (a % p) (finv (b % p)) = a * b ^ (p - 2) % p := by
  rw [finv_eq, ← Nat.pow_mod, fmul, ← Nat.mul_mod]

theorem aff_extOf (s : State) (i : Idx) : aff (extOf (s.slot i)) =
    ⟨s.uint i * s.uint (i + 2) ^ (p - 2) % p, s.uint (i + 1) * s.uint (i + 2) ^ (p - 2) % p⟩ :=
  congrArg₂ Affine.mk (fmul_finv_mod _ _) (fmul_finv_mod _ _)

/-- Z = 0 mod p gives the affine coordinates (0, 0), as inv_p(0) = 0 (R8, R174). -/
theorem aff_of_z_zero {e : Ext} (h : e.z % p = 0) : aff e = ⟨0, 0⟩ := by
  rw [aff, finv_of_zero _ h, fmul, fmul, Nat.mul_zero, Nat.mul_zero, Nat.zero_mod]

/-- Settles O34, by the encoding of the slot's affine coordinates; a misaligned RA makes the command ill-formed. -/
theorem ptEncWritesEncoding : Obligations.PtEncWritesEncoding := by
  unfold Obligations.PtEncWritesEncoding
  intro rd ra s
  obtain ⟨hop, -⟩ := EncodeShape.ptEnc rd ra
  refine ⟨fun ha => ?_, fun ha hz => ?_, fun ha _ => ptEnc_writesWord ha rd s, fun ha => ?_, hop⟩
  · have hw := ptEnc_writesWord ha rd s
    rwa [encodePoint_toNat (aff_canonical _).2, aff_extOf] at hw
  · have hw := ptEnc_writesWord ha rd s
    rwa [aff_of_z_zero ((Nat.mod_mod _ p).trans hz)] at hw
  · have hill : (Instr.ptEnc rd ra).wellFormed = false := (namesPoint_eq_false_iff ra).2 ha
    exact endsWithError_of_eq (exec_of_not_wellFormed hill s)

/-- Settles O35: the encoding of a curve point determines it. -/
theorem ptEncDecidesPointEquality : Obligations.PtEncDecidesPointEquality := by
  unfold Obligations.PtEncDecidesPointEquality
  intro rd ra rb s ha hb hva hvb
  obtain ⟨t, ht, -, htw⟩ := exec_ptEnc_eq_next ha rd s
  obtain ⟨u, hu, -, huw⟩ := exec_ptEnc_eq_next hb rd s
  refine ⟨t, u, ht, hu, ?_⟩
  rw [htw, huw]
  exact ⟨encodePoint_injective (aff_canonical _) (aff_canonical _) (onCurve_aff hva) (onCurve_aff hvb),
    congrArg encodePoint⟩

/-! ### Decoding a word -/

theorem encodePoint_eq_word_iff {q : Affine} (hq : q.y < p) (s : State) (i : Idx) :
    encodePoint q = s.word i ↔ q.y + 2 ^ 255 * (q.x % 2) = s.uint i := by
  rw [← BitVec.toNat_inj, encodePoint_toNat hq, State.uint]

theorem smallOrder_eq_false_iff {q : Affine} (hq : Canonical q) (hon : onCurve q = true) :
    smallOrder q = false ↔ nsmul 8 q ≠ identity := by
  rw [← Bool.not_eq_true, smallOrder_iff hq hon]

/-- What decoding answers is a curve point that the policy lets pass and whose encoding is the word (R165). -/
theorem decodePoint_iff_nsmul (r : Bool) (w : Word) (q : Affine) : decodePoint r w = some q ↔
    Canonical q ∧ onCurve q = true ∧ encodePoint q = w ∧ (r = true → nsmul 8 q ≠ identity) := by
  rw [decodePoint_iff]
  refine and_congr_right fun hq => and_congr_right fun hon => and_congr_right fun _ => ?_
  rw [smallOrder_eq_false_iff hq hon]

theorem exec_ptDec_of_some {rd : Idx} (hd : rd.val % 4 = 0) {ra : Idx} {s : State} {q : Affine}
    (h : decodePoint s.drso (s.word ra) = some q) :
    exec (.ptDec rd ra) s = complete s (slotWrites rd (wordsOf (normPoint q))) := by
  rw [execPtDec_of_aligned rd ra s ((pointAligned_iff rd).2 hd), h]

theorem exec_ptDec_of_none {rd : Idx} (hd : rd.val % 4 = 0) {ra : Idx} {s : State}
    (h : decodePoint s.drso (s.word ra) = none) : exec (.ptDec rd ra) s = raise s .invalidEncoding := by
  rw [execPtDec_of_aligned rd ra s ((pointAligned_iff rd).2 hd), h]

theorem ptDec_writesSlot {rd : Idx} (hd : rd.val % 4 = 0) {ra : Idx} {s : State} {q : Affine}
    (h : decodePoint s.drso (s.word ra) = some q) : WritesSlot (.ptDec rd ra) s rd (normPoint q) := by
  obtain ⟨hq, -⟩ := (decodePoint_iff _ _ _).1 h
  exact writesSlot_of_canonical (normPoint_canonical hq) (exec_ptDec_of_some hd h)

theorem exec_ptDec_of_misaligned {rd : Idx} (hd : rd.val % 4 ≠ 0) (ra : Idx) (s : State) :
    exec (.ptDec rd ra) s = raise s .operandAlign :=
  exec_of_not_wellFormed (i := .ptDec rd ra) ((namesPoint_eq_false_iff rd).2 hd) s

/-- Settles O36: decoding answers exactly the curve point with the encoding, if the policy lets it pass; and no other
curve point has the encoding of one that the policy rejects. -/
theorem ptDecDecodesExactlyTheEncodings : Obligations.PtDecDecodesExactlyTheEncodings := by
  unfold Obligations.PtDecDecodesExactlyTheEncodings
  intro rd ra s
  obtain ⟨hop, -⟩ := EncodeShape.ptDec rd ra
  refine ⟨fun hd q hx hy hcurve henc => ?_, fun hd hno => ?_, fun hd => ?_, hop⟩
  · have hon := (satisfiesCurve_iff q).1 hcurve
    have hword := (encodePoint_eq_word_iff hy s ra).2 henc
    refine ⟨fun hpolicy => ptDec_writesSlot hd ((decodePoint_iff_nsmul _ _ _).2 ⟨⟨hx, hy⟩, hon, hword, hpolicy⟩),
      fun hr hsmall => ?_⟩
    refine endsWithError_of_eq (exec_ptDec_of_none hd (Option.eq_none_iff_forall_ne_some.2 fun q' h => ?_))
    obtain ⟨hq', hon', henc', hpolicy⟩ := (decodePoint_iff_nsmul _ _ _).1 h
    have hqq : q' = q := encodePoint_injective hq' ⟨hx, hy⟩ hon' hon (henc'.trans hword.symm)
    exact hpolicy hr (hqq ▸ hsmall)
  · refine endsWithError_of_eq (exec_ptDec_of_none hd (Option.eq_none_iff_forall_ne_some.2 fun q h => ?_))
    obtain ⟨⟨hx, hy⟩, hon, henc, -⟩ := (decodePoint_iff _ _ _).1 h
    exact hno ⟨q, hx, hy, (satisfiesCurve_iff q).2 hon, (encodePoint_eq_word_iff hy s ra).1 henc⟩
  · exact endsWithError_of_eq (exec_ptDec_of_misaligned hd ra s)

/-! ### Decoding and encoding -/

/-- A completion with an error shows it in ERR (R200). -/
theorem err_ne_zero_of_raise {i : Instr} {s t : State} {e : ErrCode} (h : exec i s = raise s e)
    (ht : exec i s = .next t) : t.err ≠ 0#4 := by
  obtain rfl : finish s e.code = t := Host.Outcome.next.inj (h.symm.trans ht)
  rw [finish_err]
  cases e <;> decide

/-- PT_DEC succeeds only on an aligned slot and a word that decodes (R175). -/
theorem decodes_of_ptDec_success {rd ra : Idx} {s t : State} (h : exec (.ptDec rd ra) s = .next t)
    (herr : t.err = 0#4) : rd.val % 4 = 0 ∧ ∃ q, decodePoint s.drso (s.word ra) = some q := by
  have hd : rd.val % 4 = 0 := by
    by_contra hd
    exact err_ne_zero_of_raise (exec_ptDec_of_misaligned hd ra s) h herr
  refine ⟨hd, Option.ne_none_iff_exists'.1 fun hn => ?_⟩
  exact err_ne_zero_of_raise (exec_ptDec_of_none hd hn) h herr

/-- Settles O37: the slot PT_DEC wrote represents the point, whose encoding is the word. -/
theorem ptEncAfterPtDecIsTheWord : Obligations.PtEncAfterPtDecIsTheWord := by
  unfold Obligations.PtEncAfterPtDecIsTheWord
  intro rd ra re s t hexec herr
  obtain ⟨hd, q, hdec⟩ := decodes_of_ptDec_success hexec herr
  obtain ⟨hq, -, henc, -⟩ := (decodePoint_iff _ _ _).1 hdec
  obtain ⟨t', ht', -, hslot⟩ := exists_slot_of_writesSlot (normPoint_canonical hq) (ptDec_writesSlot hd hdec)
  obtain rfl : t' = t := Host.Outcome.next.inj (ht'.symm.trans hexec)
  have hw := ptEnc_writesWord hd re t'
  rwa [hslot, aff_norm hq, henc] at hw

/-- Settles O38: the encoding of a slot's curve point decodes to it where no policy rejects it. -/
theorem ptDecAfterPtEncIsTheNormalisedPoint : Obligations.PtDecAfterPtEncIsTheNormalisedPoint := by
  unfold Obligations.PtDecAfterPtEncIsTheNormalisedPoint
  intro rd ra re s t hd ha hr hv hexec
  obtain ⟨t', ht', hdrso, hword⟩ := exec_ptEnc_eq_next ha re s
  obtain rfl : t' = t := Host.Outcome.next.inj (ht'.symm.trans hexec)
  refine ptDec_writesSlot hd ?_
  rw [hdrso, hr, hword]
  exact (decodePoint_false_iff _ _).2 ⟨aff_canonical _, onCurve_aff hv, rfl⟩

end Sys2Proof.Proofs

/-! What the block has in place of exceptions: an error code at a command's completion, which no arithmetic condition
raises, and no event that stops the block. -/

namespace Sys2Proof.Proofs

open Sys2Proof.Machine Sys2Proof.Laws

/-! ### Completion codes -/

/-- Settles O8, by the ways a command can end: OPERAND_ALIGN needs an ill-formed command, INVALID_ENCODING is PT_DEC's,
and every other end is a completion without error. -/
theorem wellFormedCommandsCompleteWithoutError : Obligations.WellFormedCommandsCompleteWithoutError := by
  unfold Obligations.WellFormedCommandsCompleteWithoutError
  intro i s hwf
  rcases exec_cases i s with ⟨hill, -⟩ | ⟨-, hdec, h⟩ | ⟨-, n, ws, -, -, h⟩
  · exact absurd hwf (Bool.eq_false_iff.1 hill)
  · exact ⟨_, h.trans (raise_eq s .invalidEncoding), Or.inr ⟨finish_err s _, hdec⟩⟩
  · exact ⟨_, h.trans (complete_eq _ ws), Or.inl (finish_err _ _)⟩

/-! ### The parameter -/

@[simp] theorem writeCtrl_drso (s : State) (v : BusWord) : (writeCtrl s v).drso = s.drso := by
  unfold writeCtrl
  split <;> rfl

@[simp] theorem writeCommand_drso (s : State) (c : BusWord) : (writeCommand s c).drso = s.drso := by
  unfold writeCommand
  split <;> rfl

/-- No transfer writes the parameter (R33). -/
theorem busAccess_drso (s : State) (tr : Transfer) : (busAccess s tr).drso = s.drso := by
  obtain ⟨s', r, he, hs⟩ := busAccess_cases s tr
  rw [he]
  rcases hs with rfl | ⟨-, rfl⟩ | ⟨-, -, ⟨-, rfl⟩ | ⟨-, rfl⟩ | ⟨-, rfl⟩ | ⟨n, j, -, -, rfl⟩⟩
  · rfl
  · rfl
  · exact writeCtrl_drso s tr.wdata
  · rfl
  · exact writeCommand_drso s tr.wdata
  · rfl

/-- Out of reset no event changes the parameter: not the Engine's turn, a transfer or a change of the pin (log 4). -/
theorem step_drso_of_running {s t : State} (hrst : s.rstN = true) (h : step s = .next t) : t.drso = s.drso := by
  rcases step_cases s hrst with ⟨-, hs⟩ | ⟨tr, rest, -, hs⟩ | ⟨rest, -, hs⟩ | ⟨rest, -, hs⟩ <;> rw [h] at hs
  · rcases engineTurn_eq { s with agenda := s.agenda.tail } with ⟨-, he⟩ | ⟨-, w, n, c, -, he⟩ <;>
      obtain rfl := Host.Outcome.next.inj (hs.trans he)
    · rfl
    · rfl
  · obtain rfl := Host.Outcome.next.inj hs
    exact busAccess_drso _ tr
  · obtain rfl := Host.Outcome.next.inj hs
    rfl
  · obtain rfl := Host.Outcome.next.inj hs
    rfl

/-- In reset no event changes the parameter, which is no state that the reset restores (log 4, log 14). -/
theorem step_drso_of_held {s t : State} (hrst : s.rstN = false) (h : step s = .next t) : t.drso = s.drso := by
  rcases step_of_reset s hrst with hs | hs <;> rw [h] at hs <;> obtain rfl := Host.Outcome.next.inj hs
  · rfl
  · rfl

/-- Settles O52: every step has a next state, as for the end of a run, and no step changes the parameter, whatever the
level of the pin. -/
theorem everyStepHasANextState : Obligations.EveryStepHasANextState := by
  unfold Obligations.EveryStepHasANextState
  intro s
  obtain ⟨t, hstep, -⟩ := step_eq_next_tail s
  refine ⟨t, hstep, ?_⟩
  rcases Bool.eq_false_or_eq_true s.rstN with hrst | hrst
  · exact step_drso_of_running hrst hstep
  · exact step_drso_of_held hrst hstep

end Sys2Proof.Proofs

/-! The pin `rst_n`: what the block does when it goes low, while it is low, and when it goes high. -/

namespace Sys2Proof.Proofs

open Sys2Proof.Machine Sys2Proof.Laws

/-- Going low resets the block, whether it is busy or idle (R230). -/
theorem step_pinFalls {s : State} {rest : List Event} (hrst : s.rstN = true) (ha : s.agenda = .rstPin false :: rest) :
    step s = .next (hardReset { s with agenda := rest }) := by
  simp only [step_cons s _ rest ha, runEvent, hrst]

/-- While the pin is low, every event but its going high leaves the reset values: a transfer is lost, the Engine has no
turn (R230, log 7). -/
theorem step_held {s : State} {e : Event} {rest : List Event} (hrst : s.rstN = false) (ha : s.agenda = e :: rest)
    (he : e ≠ .rstPin true) : step s = .next (applyReset { s with agenda := rest }) := by
  rw [step_cons s e rest ha]
  match e with
  | .access _ => simp only [runEvent, hrst]
  | .engine => simp only [runEvent, hrst]
  | .rstPin false => simp only [runEvent, hrst]
  | .rstPin true => exact absurd rfl he

/-- Going high releases the block (R230). -/
theorem step_pinRises {s : State} {rest : List Event} (hrst : s.rstN = false) (ha : s.agenda = .rstPin true :: rest) :
    step s = .next (releaseReset { s with agenda := rest }) := by
  simp only [step_cons s _ rest ha, runEvent, hrst]

/-- Settles O47, by the one state that each kind of event leaves: falling, held and rising pin each leave the reset
values, where DONE is 0 and so `irq` is low. -/
theorem hardResetHoldsTheBlock : Obligations.HardResetHoldsTheBlock := by
  unfold Obligations.HardResetHoldsTheBlock
  intro s rest
  refine ⟨fun hrst ha => ?_, fun hrst e ha he => ?_, fun hrst ha => ?_⟩
  · exact ⟨_, step_pinFalls hrst ha, hardReset_atReset _, irq_of_done_false rfl, rfl, rfl, rfl⟩
  · exact ⟨_, step_held hrst ha he, applyReset_atReset _, irq_of_done_false rfl, hrst, rfl, rfl⟩
  · exact ⟨_, step_pinRises hrst ha, releaseReset_atReset _, irq_of_done_false rfl, rfl, rfl⟩

end Sys2Proof.Proofs
